-- ==== Sys2Proof/Word.lean ====
section
/-! DEFINITION. The bytes, the 32-bit host words and the byte groups of the spec (00_scope.md R15, R16). -/

namespace Sys2Proof

/-- A byte: 8 bits, bit 7 most significant (R15). -/
abbrev Byte := BitVec 8

/-- A 32-bit host word (R10, R15). -/
abbrev Word := BitVec 32

/-- A "word" of a byte sequence: four consecutive bytes, `t0` at the lowest offset (R16).
It is one column of a state and one word of a key schedule. -/
structure Quad where
  t0 : Byte
  t1 : Byte
  t2 : Byte
  t3 : Byte
deriving DecidableEq, Repr

/-- A block or state: 16 bytes in four columns, byte `i` in column `i >> 2` and row `i & 3` (R8, R16). -/
structure Block where
  c0 : Quad
  c1 : Quad
  c2 : Quad
  c3 : Quad
deriving DecidableEq, Repr

end Sys2Proof
end

