-- ==== Sys2Proof/Machine/Bytes.lean ====
section
/-! DEFINITION. Byte groups: access by offset, exclusive-or, and the one packing of byte sequences into host words
(00_scope.md R16, 20_memory.md R56). -/

namespace Sys2Proof.Machine

/-- Byte `j` of a four-byte group. -/
def quadByte (q : Quad) : Nat → Byte
  | 0 => q.t0
  | 1 => q.t1
  | 2 => q.t2
  | _ => q.t3

/-- The four-byte group whose byte `j` is `f j`. -/
def quadOfFn (f : Nat → Byte) : Quad := ⟨f 0, f 1, f 2, f 3⟩

/-- Four zero bytes. -/
def quadZero : Quad := ⟨0, 0, 0, 0⟩

/-- Bytewise exclusive-or. -/
def quadXor (p q : Quad) : Quad := ⟨p.t0 ^^^ q.t0, p.t1 ^^^ q.t1, p.t2 ^^^ q.t2, p.t3 ^^^ q.t3⟩

/-- R56: byte `4k + j` of a sequence is bits [8j+7 : 8j] of word `k` (little-endian packing). -/
def packQuad (q : Quad) : Word := q.t3 ++ q.t2 ++ q.t1 ++ q.t0

/-- R56, read the other way: the four bytes a host word holds. -/
def unpackWord (w : Word) : Quad :=
  ⟨w.extractLsb' 0 8, w.extractLsb' 8 8, w.extractLsb' 16 8, w.extractLsb' 24 8⟩

/-- Four-byte groups of a byte sequence, in order; a rest shorter than four bytes is dropped. -/
def quadsOfBytes : List Byte → List Quad
  | a :: b :: c :: d :: rest => ⟨a, b, c, d⟩ :: quadsOfBytes rest
  | _ => []

/-- Column `c` of a block: bytes `4c .. 4c+3` (R16). -/
def blockCol (s : Block) : Nat → Quad
  | 0 => s.c0
  | 1 => s.c1
  | 2 => s.c2
  | _ => s.c3

/-- Byte `i` of a block: row `i & 3` of column `i >> 2` (R16). -/
def blockByte (s : Block) (i : Nat) : Byte := quadByte (blockCol s (i >>> 2)) (i &&& 3)

/-- The block whose byte `i` is `f i`. -/
def blockOfFn (f : Nat → Byte) : Block :=
  ⟨quadOfFn fun j => f j, quadOfFn fun j => f (4 + j), quadOfFn fun j => f (8 + j), quadOfFn fun j => f (12 + j)⟩

/-- Sixteen zero bytes. -/
def blockZero : Block := ⟨quadZero, quadZero, quadZero, quadZero⟩

/-- Bytewise exclusive-or. -/
def blockXor (s t : Block) : Block :=
  ⟨quadXor s.c0 t.c0, quadXor s.c1 t.c1, quadXor s.c2 t.c2, quadXor s.c3 t.c3⟩

/-- A function on every column. -/
def blockMapCols (f : Quad → Quad) (s : Block) : Block := ⟨f s.c0, f s.c1, f s.c2, f s.c3⟩

/-- The sixteen bytes in offset order. -/
def blockBytes (s : Block) : List Byte := (List.range 16).map (blockByte s)

/-- The block in four host words (IV0 .. IV3, TAG0 .. TAG3), packed by R56. -/
def packBlock (s : Block) : Vector Word 4 := #v[packQuad s.c0, packQuad s.c1, packQuad s.c2, packQuad s.c3]

/-- The block that four host words hold (R30, R56). -/
def unpackBlock (w : Vector Word 4) : Block :=
  ⟨unpackWord w[0], unpackWord w[1], unpackWord w[2], unpackWord w[3]⟩

end Sys2Proof.Machine
end

