-- ==== Sys2Proof/Machine/Gf.lean ====
section
/-! DEFINITION. GF(2^8) arithmetic (40_tables_and_stages.md R103, R104) and the round constants (41_key_schedule.md
R132). Addition is exclusive-or. -/

namespace Sys2Proof.Machine

/-- Doubling (R103): shift left one bit, exclusive-or 0x1B when the top bit was set. -/
def xtime (a : Byte) : Byte := (a <<< 1) ^^^ (if a.getLsbD 7 then 0x1B#8 else 0x00#8)

/-- Doubling `k` times; none at all for `k = 0` (R104). -/
def xtimePow : Nat → Byte → Byte
  | 0, a => a
  | k + 1, a => xtime (xtimePow k a)

/-- Multiplication (R104): the exclusive-or of `xtimePow k a` over the bits `k` that are set in `c`. -/
def gmul (a c : Byte) : Byte :=
  (List.range 8).foldl (fun acc k => if c.getLsbD k then acc ^^^ xtimePow k a else acc) 0

/-- Mul2 = xtime (R104). -/
def mul2 (a : Byte) : Byte := xtime a

/-- Mul3(a) = xtime(a) ^ a (R104). -/
def mul3 (a : Byte) : Byte := xtime a ^^^ a

/-- Mul9(a) = xtime³(a) ^ a (R104). -/
def mul9 (a : Byte) : Byte := xtimePow 3 a ^^^ a

/-- MulB(a) = xtime³(a) ^ xtime(a) ^ a (R104). -/
def mulB (a : Byte) : Byte := xtimePow 3 a ^^^ xtime a ^^^ a

/-- MulD(a) = xtime³(a) ^ xtime²(a) ^ a (R104). -/
def mulD (a : Byte) : Byte := xtimePow 3 a ^^^ xtimePow 2 a ^^^ a

/-- MulE(a) = xtime³(a) ^ xtime²(a) ^ xtime(a) (R104). -/
def mulE (a : Byte) : Byte := xtimePow 3 a ^^^ xtimePow 2 a ^^^ xtime a

/-- R132: Rcon[0] = 0x00, Rcon[1] = 0x01, Rcon[j+1] = xtime(Rcon[j]). -/
def rcon : Nat → Byte
  | 0 => 0x00
  | 1 => 0x01
  | j + 2 => xtime (rcon (j + 1))

end Sys2Proof.Machine
end

