-- ==== Sys2Proof/Machine/Stages.lean ====
section
/-! DEFINITION. The forward and inverse stages of a round (40_tables_and_stages.md R110 to R116), each a total function
of a 16-byte state. -/

namespace Sys2Proof.Machine

/-- A round-key byte image K, as its four-byte words in offset order: byte `4i + j` of K is byte `j` of entry `i`
(41_key_schedule.md R133). -/
abbrev RoundKeys := List Quad

/-- Byte `b` of a round-key image. Beyond the image it reads 0, which no transform of a reachable state does (log 11). -/
def imageByte (k : RoundKeys) (b : Nat) : Byte := quadByte (k.getD (b / 4) quadZero) (b % 4)

/-- Round key `r`: bytes K[16r .. 16r+16) (00_scope.md R19). -/
def roundKey (k : RoundKeys) (r : Nat) : Block :=
  ⟨k.getD (4 * r) quadZero, k.getD (4 * r + 1) quadZero, k.getD (4 * r + 2) quadZero, k.getD (4 * r + 3) quadZero⟩

/-- SubBytes (R110). -/
def subBytes (s : Block) : Block := blockOfFn fun i => sbox (blockByte s i)

/-- ShiftRows (R111; 90_conflicts.md C1: the index is the source of output byte `i`). -/
def shiftRows (s : Block) : Block := blockOfFn fun i => blockByte s ((i + ((i &&& 3) <<< 2)) &&& 0xF)

/-- One column of MixColumns (R112; 90_conflicts.md C5). -/
def mixColumn (a : Quad) : Quad :=
  quadOfFn fun j =>
    mul2 (quadByte a j) ^^^ mul3 (quadByte a ((j + 1) % 4)) ^^^ quadByte a ((j + 2) % 4) ^^^ quadByte a ((j + 3) % 4)

/-- MixColumns (R112). -/
def mixColumns (s : Block) : Block := blockMapCols mixColumn s

/-- AddRoundKey with round key `r` (R113). -/
def addRoundKey (s : Block) (k : RoundKeys) (r : Nat) : Block := blockXor s (roundKey k r)

/-- InvSubBytes (R114). -/
def invSubBytes (s : Block) : Block := blockOfFn fun i => invSbox (blockByte s i)

/-- InvShiftRows (R115): the subtraction is taken modulo 16. -/
def invShiftRows (s : Block) : Block := blockOfFn fun i => blockByte s ((16 + i - ((i &&& 3) <<< 2)) &&& 0xF)

/-- One column of InvMixColumns (R116). -/
def invMixColumn (a : Quad) : Quad :=
  quadOfFn fun j =>
    mulE (quadByte a j) ^^^ mulB (quadByte a ((j + 1) % 4)) ^^^ mulD (quadByte a ((j + 2) % 4))
      ^^^ mul9 (quadByte a ((j + 3) % 4))

/-- InvMixColumns (R116). -/
def invMixColumns (s : Block) : Block := blockMapCols invMixColumn s

end Sys2Proof.Machine
end

