-- ==== Sys2Proof/Machine/KeyExpansion.lean ====
section
/-! DEFINITION. The expansion function KeyExpand (41_key_schedule.md R131 to R137). -/

namespace Sys2Proof.Machine

/-- R131: the supported key lengths in words. -/
abbrev supportedNk (nk : Nat) : Prop := nk = 4 ∨ nk = 5 ∨ nk = 6 ∨ nk = 8

/-- NW, the number of round-key words (R9, R133). -/
def roundKeyWords (nk : Nat) : Nat := 4 * (nk + 6 + 1)

/-- The rotate-and-substitute step on W[i-1] with round-constant index `j` (R133, R134). -/
def rotSub (j : Nat) (t : Quad) : Quad := ⟨sbox t.t1 ^^^ rcon j, sbox t.t2, sbox t.t3, sbox t.t0⟩

/-- W[i] from W[i-1] and W[i-Nk] (R133; R135: there is no other substitution step). -/
def scheduleWord (nk i : Nat) (prev back : Quad) : Quad :=
  quadXor back (if i % nk = 0 then rotSub (i / nk) prev else prev)

/-- `n` further words after those in `w`, which holds W[i-1] first and W[0] last. -/
def extendWords (nk : Nat) : Nat → List Quad → List Quad
  | 0, w => w
  | n + 1, w => extendWords nk n (scheduleWord nk w.length (w.getD 0 quadZero) (w.getD (nk - 1) quadZero) :: w)

/-- W[0] .. W[NW-1] from the key's words (R133). -/
def keyWords (key : List Quad) (nk : Nat) : List Quad :=
  (extendWords nk (roundKeyWords nk - nk) (key.take nk).reverse).reverse

/-- Exclusive-or of `v` into byte `b` of an image. -/
def xorImageByte (k : RoundKeys) (b : Nat) (v : Byte) : RoundKeys :=
  k.modify (b / 4) fun q => quadXor q (quadOfFn fun j => if j = b % 4 then v else 0)

/-- The V6 tweak (R136): three fixed bytes into three fixed offsets. -/
def applyTweak (k : RoundKeys) : RoundKeys :=
  xorImageByte (xorImageByte (xorImageByte k 64 0x73) 96 0x09) 128 0xE4

/-- KeyExpand(key, Nk, tweak) (R133): the 240-byte image, zero beyond the round keys (R137), and Nr. -/
def keyExpand (key : List Quad) (nk : Nat) (tweak : Bool) : RoundKeys × Nat :=
  let w := keyWords key nk
  let k := w ++ List.replicate (60 - w.length) quadZero
  (if tweak then applyTweak k else k, nk + 6)

end Sys2Proof.Machine
end

