-- ==== Sys2Proof/Machine/BlockCipher.lean ====
section
/-! DEFINITION. The forward and inverse block transforms as functions (42_block_transforms.md R153 to R156). -/

namespace Sys2Proof.Machine

/-- Round `r` of Cipher: MixColumns in every round but the last (R153, R155). -/
def cipherRound (k : RoundKeys) (nr r : Nat) (s : Block) : Block :=
  let t := shiftRows (subBytes s)
  addRoundKey (if r = nr then t else mixColumns t) k r

/-- Cipher(K, Nr, blk) (R153): rounds 1 .. Nr after AddRoundKey 0. -/
def cipher (k : RoundKeys) (nr : Nat) (blk : Block) : Block :=
  (List.range nr).foldl (fun s n => cipherRound k nr (n + 1) s) (addRoundKey blk k 0)

/-- Round `r` of InvCipher: InvMixColumns in every round but round 0 (R154, R156). -/
def invCipherRound (k : RoundKeys) (r : Nat) (s : Block) : Block :=
  let t := addRoundKey (invSubBytes (invShiftRows s)) k r
  if r = 0 then t else invMixColumns t

/-- InvCipher(K, Nr, blk) (R154): rounds Nr-1 down to 0 after AddRoundKey Nr. -/
def invCipher (k : RoundKeys) (nr : Nat) (blk : Block) : Block :=
  (List.range nr).reverse.foldl (fun s r => invCipherRound k r s) (addRoundKey blk k nr)

end Sys2Proof.Machine
end

