-- ==== Sys2Proof/Config.lean ====
section
/-! DEFINITION. The parameters of one AESCORE (00_scope.md R11, R12) and the values they take on the platform,
which the spec leaves OPEN. The free values a run draws (latencies, unspecified reads) stand beside `State`, since they
may depend on all of it. -/

namespace Sys2Proof

/-- The named parameters of the block. They are fixed for a machine: no operation writes them (log 1). -/
structure Config where
  /-- DBUF_BYTES: the capacity of the data buffer in bytes (R11). -/
  dbufBytes : Nat
  /-- V4_KEY: the fixed key of the MAC unit (R12). -/
  v4Key : Vector Byte 20
deriving DecidableEq, Repr

/-- R11: DBUF_BYTES is a multiple of 16 with 32 ≤ DBUF_BYTES ≤ 0xF000. -/
abbrev Config.Legal (c : Config) : Prop :=
  c.dbufBytes % 16 = 0 ∧ 32 ≤ c.dbufBytes ∧ c.dbufBytes ≤ 0xF000

/-- DESIGN CHOICE (log 1), safe: which legal capacity the platform has is a free value. -/
opaque Config.freeBlocks : Nat

/-- DESIGN CHOICE (log 1), safe: the platform's V4 key is a free value (R12, 92_eei_decisions.md D14). -/
opaque Config.freeV4Key : Vector Byte 20

/-- The platform's parameters: any legal capacity (`16 * k + 32` for `k` up to 3838 are all of them), any key. -/
def Config.platform : Config where
  dbufBytes := 16 * (Config.freeBlocks % 3839) + 32
  v4Key := Config.freeV4Key

end Sys2Proof
end

