-- ==== Sys2Proof/Syntax.lean ====
section
/-! DEFINITION. The commands of AESCORE: one constructor for each row of spec/opcode_table.json (30_encoding.md R86).
Operands are the fields of the word as the spec reads them: one-bit flags (R82, R83) and unsigned numbers (R84, R85). -/

namespace Sys2Proof

/-- A command. -/
inductive Instr where
  /-- NOP (45_control.md R200). -/
  | nop
  /-- KEYEXP nk[, v6] (41_key_schedule.md R130): `tweak` is TWEAK, `nk` the key length in 32-bit words. -/
  | keyexp (tweak : Bool) (nk : Nat)
  /-- ENCB b (42_block_transforms.md R150): `bidx` is the index of the 16-byte DBUF block. -/
  | encb (bidx : Nat)
  /-- DECB b (42_block_transforms.md R151). -/
  | decb (bidx : Nat)
  /-- CBCENC [iv] (43_cbc.md R170): `iven` says that an IV is supplied. -/
  | cbcenc (iven : Bool)
  /-- CBCDEC [iv] (43_cbc.md R175). -/
  | cbcdec (iven : Bool)
  /-- MAC (44_mac.md R190). -/
  | mac
deriving DecidableEq, Repr

end Sys2Proof
end

