-- ==== Sys2Proof/WellFormed.lean ====
section
/-! DEFINITION. When a command's operands fit the fields of the command word (30_encoding.md R80). -/

namespace Sys2Proof

/-- The operands fit their fields: NK has 4 bits (R84), BIDX has 16 (R85). An NK outside 4, 5, 6, 8 is well-formed:
it is a key-length error of KEYEXP, not an illegal encoding (R84). -/
def Instr.wellFormed : Instr → Bool
  | .nop => true
  | .keyexp _ nk => nk < 16
  | .encb bidx => bidx < 65536
  | .decb bidx => bidx < 65536
  | .cbcenc _ => true
  | .cbcdec _ => true
  | .mac => true

end Sys2Proof
end

