-- ==== Sys2Proof/Decode.lean ====
section
/-! DEFINITION. Decoding a command word, total on all 32-bit words (30_encoding.md R80 to R88), and encoding
a command back (R80, R89). -/

namespace Sys2Proof

/-- Why a word is no command (R87). -/
inductive Illegal where
  /-- OP is 0x7 .. 0xF. -/
  | reservedOp
  /-- OP is defined, but the word sets a bit that command does not use. -/
  | unusedBit
deriving DecidableEq, Repr

/-- What a word decodes to: the row that accepts it, or `Illegal` by name (R88). -/
inductive Decoded where
  | instr (i : Instr)
  | illegal (why : Illegal)
deriving DecidableEq, Repr

/-- OP = w[3:0] (R81). -/
def opField (w : Word) : BitVec 4 := w.extractLsb' 0 4

/-- IVEN = w[4] (R82). -/
def ivenField (w : Word) : Bool := w.getLsbD 4

/-- TWEAK = w[5] (R83). -/
def tweakField (w : Word) : Bool := w.getLsbD 5

/-- The reserved bits w[7:6] (R80). -/
def reserved76 (w : Word) : BitVec 2 := w.extractLsb' 6 2

/-- NK = w[11:8] (R84). -/
def nkField (w : Word) : BitVec 4 := w.extractLsb' 8 4

/-- The reserved bits w[15:12] (R80). -/
def reserved1512 (w : Word) : BitVec 4 := w.extractLsb' 12 4

/-- BIDX = w[31:16] (R85). -/
def bidxField (w : Word) : BitVec 16 := w.extractLsb' 16 16

/-- No bit is set in any field but those the command uses (R80's column "used by", R87): a field it uses
is passed as `true`. The two reserved fields are used by none. -/
def unusedClear (w : Word) (useIven useTweak useNk useBidx : Bool) : Bool :=
  reserved76 w == 0 && reserved1512 w == 0
    && (useIven || !ivenField w) && (useTweak || !tweakField w)
    && (useNk || nkField w == 0) && (useBidx || bidxField w == 0)

/-- The command if its unused bits are clear, else illegal (R87). -/
def ifClear (clear : Bool) (i : Instr) : Decoded :=
  if clear then .instr i else .illegal .unusedBit

/-- R86, R88: the command a word stands for. -/
def decode (w : Word) : Decoded :=
  match (opField w).toNat with
  | 0 => ifClear (unusedClear w false false false false) .nop
  | 1 => ifClear (unusedClear w false true true false) (.keyexp (tweakField w) (nkField w).toNat)
  | 2 => ifClear (unusedClear w false false false true) (.encb (bidxField w).toNat)
  | 3 => ifClear (unusedClear w false false false true) (.decb (bidxField w).toNat)
  | 4 => ifClear (unusedClear w true false false false) (.cbcenc (ivenField w))
  | 5 => ifClear (unusedClear w true false false false) (.cbcdec (ivenField w))
  | 6 => ifClear (unusedClear w false false false false) .mac
  | _ => .illegal .reservedOp

/-- A command word from its fields (R80): BIDX, four reserved bits, NK, two reserved bits, TWEAK, IVEN, OP. -/
def wordOfFields (bidx : BitVec 16) (nk : BitVec 4) (tweak iven : Bool) (op : BitVec 4) : Word :=
  bidx ++ (0#4) ++ nk ++ (0#2) ++ BitVec.ofBool tweak ++ BitVec.ofBool iven ++ op

/-- The word of a command (R86, R89). -/
def encode : Instr → Word
  | .nop => wordOfFields 0 0 false false 0x0
  | .keyexp tweak nk => wordOfFields 0 (BitVec.ofNat 4 nk) tweak false 0x1
  | .encb bidx => wordOfFields (BitVec.ofNat 16 bidx) 0 false false 0x2
  | .decb bidx => wordOfFields (BitVec.ofNat 16 bidx) 0 false false 0x3
  | .cbcenc iven => wordOfFields 0 0 false iven 0x4
  | .cbcdec iven => wordOfFields 0 0 false iven 0x5
  | .mac => wordOfFields 0 0 false false 0x6

/-- One row of the opcode map R86: a word `w` selects it when `w & mask = match`. -/
structure OpcodeRow where
  mask : Word
  pattern : Word
deriving DecidableEq, Repr

/-- R86: the row of a command. -/
def opcodeRow : Instr → OpcodeRow
  | .nop => ⟨0xFFFFFFFF, 0x00000000⟩
  | .keyexp _ _ => ⟨0xFFFFF0DF, 0x00000001⟩
  | .encb _ => ⟨0x0000FFFF, 0x00000002⟩
  | .decb _ => ⟨0x0000FFFF, 0x00000003⟩
  | .cbcenc _ => ⟨0xFFFFFFEF, 0x00000004⟩
  | .cbcdec _ => ⟨0xFFFFFFEF, 0x00000005⟩
  | .mac => ⟨0xFFFFFFFF, 0x00000006⟩

/-- R86: the seven rows. -/
def opcodeTable : List OpcodeRow :=
  [opcodeRow .nop, opcodeRow (.keyexp false 0), opcodeRow (.encb 0), opcodeRow (.decb 0),
    opcodeRow (.cbcenc false), opcodeRow (.cbcdec false), opcodeRow .mac]

/-- A row accepts a word (R86). -/
def OpcodeRow.accepts (r : OpcodeRow) (w : Word) : Bool := w &&& r.mask == r.pattern

/-- The word a table row's bits stand for: a command is one 32-bit word, bits above `nbits` are zero. -/
def tableWord (nbits w : Nat) : Word := BitVec.ofNat 32 (w % 2 ^ nbits)

/-- The command the decoder reads from an instruction whose bits are `w`. -/
def decodeTableWord (nbits w : Nat) : Option Instr :=
  match decode (tableWord nbits w) with
  | .instr i => some i
  | .illegal _ => none

end Sys2Proof
end

