-- ==== Sys2Proof/Machine/State.lean ====
section
/-! DEFINITION. The state of AESCORE (10_state.md), the host's activity (20_memory.md R50), the ways a step
can stop, reset (R40, 70_reset_and_hazards.md R240), and the values a run draws freely. -/

namespace Sys2Proof.Machine

/-- The codes of STATUS.ERR (60_exceptions.md R210). Codes 7 .. 15 are never produced (93_implementation_defined.md
I13; log 20), so they are no constructor. -/
inductive ErrCode where
  | none
  | invalidKeyLength
  | bufferTooSmall
  | noContext
  | invalidLength
  | illegalCommand
  | range
deriving DecidableEq, Repr

/-- One host access: a read or a write of one whole 32-bit word at a word address `addr[15:2]` (R50, R53). -/
inductive Access where
  | rd (addr : BitVec 14)
  | wr (addr : BitVec 14) (wdata : Word)
deriving DecidableEq, Repr

/-- What the host does in one clock cycle (log 2, log 3). -/
inductive HostOp where
  /-- No access. -/
  | idle
  /-- One register access. -/
  | access (a : Access)
  /-- The pseudo-instruction `poll` (30_encoding.md R89): `rd STATUS`, repeated until BUSY reads 0 (log 17). -/
  | poll
  /-- `rst` = 1 in this cycle, whatever access the host makes in it (70_reset_and_hazards.md R240, R241). -/
  | reset (a : Option Access)
deriving DecidableEq, Repr

/-- The ways a step stops with a fault. -/
inductive Fault where
  /-- A DBUF byte not written since reset is read, by a host read of its window or by a command (10_state.md R34,
  93_implementation_defined.md I4, I11, 92_eei_decisions.md D35; log 6). The hardware returns some byte. SAFE: the model
  stops where the hardware goes on. -/
  | dbufUnwritten (offset : Nat)
deriving DecidableEq, Repr

/-- The ways a step is refused. -/
inductive Refusal where
  /-- The instruction has no meaning yet. Raised by arms of `exec` only; no arm raises it now. SAFE. -/
  | notModelled (mnemonic : String)
deriving DecidableEq, Repr

/-- DBUF as (offset, byte) pairs: offsets strictly rising, nothing listed for a byte not written since reset,
which has no value (10_state.md R34; log 6). -/
abbrev Memory := List Host.Cell

/-- Everything the spec gives the machine. ID, DBUFSZ, STATUS.BUSY, `irq` and the MAC context are computed from
these fields (R22, R27, R36, R37, R35). -/
structure State where
  /-- The parameters DBUF_BYTES and V4_KEY (R11, R12); no operation writes them (log 1). -/
  cfg : Config
  /-- CTRL.IE (R23). -/
  ie : Bool
  /-- STATUS.DONE (R24). -/
  done : Bool
  /-- STATUS.CTXV (R24). -/
  ctxv : Bool
  /-- STATUS.OVR (R24). -/
  ovr : Bool
  /-- STATUS.TWK (R24). -/
  twk : Bool
  /-- STATUS.ERR (R24). -/
  err : ErrCode
  /-- STATUS.NR (R24). -/
  nr : BitVec 4
  /-- CMD, the last accepted command word (R25). -/
  cmd : Word
  /-- LEN (R26). -/
  len : Word
  /-- KEY0 .. KEY7 (R28). -/
  key : Vector Word 8
  /-- IV0 .. IV3 (R29). -/
  iv : Vector Word 4
  /-- TAG0 .. TAG3 (R31). -/
  tag : Vector Word 4
  /-- RK0 .. RK59 (R32). -/
  rk : Vector Word 60
  /-- DBUF (R34). -/
  dbuf : Memory
  /-- The command in flight (R36): how many cycles are left until it completes. STATUS.BUSY is 1 exactly when there
  is one (log 9). -/
  inflight : Option Nat
  /-- The port `rdata` (R50): what the host read of the last cycle returned, none if that cycle made no read (log 7). -/
  rdata : Option Word
  /-- The MODEL's field: what the host does in the cycles to come, one entry a cycle; idle when empty (log 3). -/
  host : List HostOp
  /-- The MODEL's field: how many free values have been drawn (log 8). -/
  draws : Nat
deriving DecidableEq, Repr

/-- The machine right after reset, for a block with the parameters `c` (R40, R240). -/
def State.resetWith (c : Config) : State where
  cfg := c
  ie := false
  done := false
  ctxv := false
  ovr := false
  twk := false
  err := .none
  nr := 0
  cmd := 0
  len := 0
  key := Vector.replicate 8 0
  iv := Vector.replicate 4 0
  tag := Vector.replicate 4 0
  rk := Vector.replicate 60 0
  dbuf := []
  inflight := none
  rdata := none
  host := []
  draws := 0

/-- The machine right after reset, on the platform (R40, R240; log 1). -/
def State.reset : State := State.resetWith Config.platform

end Sys2Proof.Machine

namespace Sys2Proof

/-- LATENCY, beyond its first cycle (00_scope.md R13, 70_reset_and_hazards.md R260): free for each draw. Its
argument is the state in which CMD already holds the command accepted, so it may depend on the command, its operands and the
data (60_exceptions.md R236). DESIGN CHOICE (log 4), safe. -/
opaque Config.freeLatency : Nat → Machine.State → Nat

/-- The value of a read the spec leaves unspecified (20_memory.md R60, 70_reset_and_hazards.md R240, R251):
free for each draw; it may depend on the whole state and the address. DESIGN CHOICE (log 5), safe. -/
opaque Config.freeRead : Nat → Machine.State → BitVec 14 → Word

end Sys2Proof
end

