-- ==== Sys2Proof/Machine/Flags.lean ====
section
/-! DEFINITION. The STATUS fields (10_state.md R24): the status word, what acceptance, completion, an overrun and a host
write do to it, and `irq`. The machine has no other flags (R39). -/

namespace Sys2Proof.Machine

/-- STATUS.BUSY: a command is in flight (R24, R36; log 9). -/
def busy (s : State) : Bool := s.inflight.isSome

/-- The code of STATUS.ERR (60_exceptions.md R210). -/
def errBits : ErrCode → BitVec 4
  | .none => 0
  | .invalidKeyLength => 1
  | .bufferTooSmall => 2
  | .noContext => 3
  | .invalidLength => 4
  | .illegalCommand => 5
  | .range => 6

/-- STATUS as the host reads it (R24): reserved bits read 0. -/
def statusWord (s : State) : Word :=
  (0#12) ++ s.nr ++ (0#4) ++ errBits s.err ++ (0#3) ++ BitVec.ofBool s.twk ++ BitVec.ofBool s.ovr
    ++ BitVec.ofBool s.ctxv ++ BitVec.ofBool s.done ++ BitVec.ofBool (busy s)

/-- `irq = STATUS.DONE & CTRL.IE`, a level (R37, 60_exceptions.md R220). -/
def irq (s : State) : Bool := s.done && s.ie

/-- Completion (45_control.md R202): ERR ← code, BUSY ← 0, DONE ← 1. -/
def completeWith (e : ErrCode) (s : State) : State := { s with err := e, inflight := none, done := true }

/-- CMD ← w, DONE ← 0, ERR ← 0 (45_control.md R201): the state on which the latency of the command `w` is drawn. -/
def loadCommand (w : Word) (s : State) : State := { s with cmd := w, done := false, err := .none }

/-- The latency of the command `w` accepted in `s`: at least one cycle, free for each command (00_scope.md R13); it is drawn
when CMD holds `w`, so it may depend on the command, its operands and the data (60_exceptions.md R236; log 4). -/
def drawLatency (w : Word) (s : State) : Nat := 1 + Config.freeLatency s.draws (loadCommand w s)

/-- Acceptance of the command word `w` (45_control.md R201): CMD ← w, DONE ← 0, ERR ← 0, BUSY ← 1, and the latency is
drawn. -/
def acceptCommand (w : Word) (s : State) : State :=
  { loadCommand w s with inflight := some (drawLatency w s), draws := s.draws + 1 }

/-- A write dropped because BUSY = 1 (70_reset_and_hazards.md R250): OVR ← 1. -/
def overrun (s : State) : State := { s with ovr := true }

/-- A host write of `v` to STATUS (R24): writing 1 clears DONE (bit 1) and OVR (bit 3); the rest is RO or reserved. -/
def writeStatus (v : Word) (s : State) : State :=
  { s with done := s.done && !v.getLsbD 1, ovr := s.ovr && !v.getLsbD 3 }

end Sys2Proof.Machine
end

