-- ==== Sys2Proof/Machine/Ops.lean ====
section
/-! DEFINITION. The named operations over DBUF (00_scope.md R17, 20_memory.md R57, R58) and the two ways a command
completes: with no error, and by `raise Error(CODE)` (60_exceptions.md R212), which is all this machine has for taking
an exception (R215); there is no return from it (R216). -/

namespace Sys2Proof.Machine

/-- What a meaning answers. -/
abbrev Result := Host.Outcome State Fault Refusal

/-- First `r`, then `f` on the state it gives; a stop stays a stop. -/
def andThen (r : Result) (f : State → Result) : Result :=
  match r with
  | .next s => f s
  | .fault e => .fault e
  | .refused e => .refused e

/-- DBUF[i]: the byte written there since reset, if any (10_state.md R34). -/
def memGet : Memory → Nat → Option Byte
  | [], _ => none
  | (a, b) :: m, i => if a = i then some b else memGet m i

/-- `DBUF[i] <- v`, keeping the offsets rising. -/
def memSet : Memory → Nat → Byte → Memory
  | [], i, v => [(i, v)]
  | (a, b) :: m, i, v =>
    if i < a then (i, v) :: (a, b) :: m else if i = a then (i, v) :: m else (a, b) :: memSet m i v

/-- The canonical form: offsets strictly rising. No entry stands for an unwritten byte, since such a byte has no value. -/
abbrev Memory.wf (m : Memory) : Prop := (m.map Prod.fst).Pairwise (· < ·)

/-- Every byte lies in DBUF[0 .. n). -/
abbrev Memory.within (m : Memory) (n : Nat) : Prop := ∀ c ∈ m, c.1 < n

/-- A read of DBUF[i]; a byte not written since reset faults (93_implementation_defined.md I4; log 6). -/
def memFetch (m : Memory) (i : Nat) : Except Fault Byte :=
  match memGet m i with
  | some b => .ok b
  | none => .error (.dbufUnwritten i)

/-- MemRead(a, 4) (R17), lowest byte first. -/
def readQuad (m : Memory) (a : Nat) : Except Fault Quad :=
  (memFetch m a).bind fun b0 => (memFetch m (a + 1)).bind fun b1 =>
    (memFetch m (a + 2)).bind fun b2 => (memFetch m (a + 3)).bind fun b3 => .ok ⟨b0, b1, b2, b3⟩

/-- MemRead(a, 16) (R17), lowest byte first. -/
def readBlock (m : Memory) (a : Nat) : Except Fault Block :=
  (readQuad m a).bind fun q0 => (readQuad m (a + 4)).bind fun q1 =>
    (readQuad m (a + 8)).bind fun q2 => (readQuad m (a + 12)).bind fun q3 => .ok ⟨q0, q1, q2, q3⟩

/-- MemWrite(a, n, v) (R17) of the bytes of a list. -/
def writeBytes (m : Memory) (a : Nat) : List Byte → Memory
  | [] => m
  | b :: rest => writeBytes (memSet m a b) (a + 1) rest

/-- MemWrite(a, 4, q) (R17, R57). -/
def writeQuad (m : Memory) (a : Nat) (q : Quad) : Memory := writeBytes m a [q.t0, q.t1, q.t2, q.t3]

/-- MemWrite(a, 16, s) (R17). -/
def writeBlock (m : Memory) (a : Nat) (s : Block) : Memory := writeBytes m a (blockBytes s)

/-- `raise Error(CODE)` (60_exceptions.md R212): the command ends with no effect but ERR, BUSY and DONE. -/
def raiseError (e : ErrCode) (s : State) : Result := .next (completeWith e s)

/-- A command's effects are applied: it completes with ERR = NONE (45_control.md R202). -/
def finish (s : State) : Result := .next (completeWith .none s)

/-- A command whose effect reads DBUF: it finishes, or stops on an unwritten byte (log 6). -/
def finishWith (r : Except Fault State) : Result :=
  match r with
  | .ok s => finish s
  | .error f => .fault f

end Sys2Proof.Machine
end

