-- ==== Sys2Proof/Machine/Operands.lean ====
section
/-! DEFINITION. What the commands read and where they write: the byte images of the registers (10_state.md R30), the
block an index selects (30_encoding.md R85), the chaining input (43_cbc.md R173) and the padding (R172, 44_mac.md R192). -/

namespace Sys2Proof.Machine

/-- KEYB as four-byte words, KEY0 first (R30, R56). -/
def keyQuads (s : State) : List Quad := s.key.toList.map unpackWord

/-- RKB, the round-key image of the context (R30, R32). -/
def contextKeys (s : State) : RoundKeys := s.rk.toList.map unpackWord

/-- The round-key file that holds an image (R30): RK0 .. RK59; words the image lacks are zero. -/
def packRoundKeys (k : RoundKeys) : Vector Word 60 :=
  ⟨((k.map packQuad ++ List.replicate 60 0).take 60).toArray, by simp⟩

/-- V4_KEY's five words (00_scope.md R12). -/
def v4Quads (c : Config) : List Quad := quadsOfBytes c.v4Key.toList

/-- The MAC context (10_state.md R35): KeyExpand(V4_KEY, 5, 0), a constant of the configuration. -/
def macContext (c : Config) : RoundKeys × Nat := keyExpand (v4Quads c) 5 false

/-- The offset in DBUF of the block an index selects (30_encoding.md R85). -/
def blockOffset (bidx : Nat) : Nat := 16 * bidx

/-- The initial chaining input: IVB when IVEN = 1, none when IVEN = 0 (R29, 30_encoding.md R82). -/
def chainingInput (iven : Bool) (s : State) : Option Block := if iven then some (unpackBlock s.iv) else none

/-- Exclusive-or with a chaining value, if there is one (43_cbc.md R173, R177). -/
def xorChain (x : Block) : Option Block → Block
  | some c => blockXor x c
  | none => x

/-- The chaining value of block `b`: the external input for block 0, else what DBUF holds as block `b - 1`. -/
def chainBefore (iv : Option Block) (b : Nat) (m : Memory) : Except Fault (Option Block) :=
  if b = 0 then .ok iv else (readBlock m (16 * (b - 1))).map some

/-- The number of pad bytes of CBCENC (43_cbc.md R172): 16 - (LEN mod 16), 1 .. 16. -/
def padCount (len : Nat) : Nat := 16 - len % 16

/-- CBC padding (43_cbc.md R172): each pad byte equals the pad count. -/
def cbcPad (len : Nat) (m : Memory) : Memory :=
  writeBytes m len (List.replicate (padCount len) (BitVec.ofNat 8 (padCount len)))

/-- The padded length of MAC (44_mac.md R192). -/
def macLength (len : Nat) : Nat := 16 * (len / 16) + 16

/-- MAC padding (44_mac.md R192): one 0x80 byte, then zeros up to the block boundary. -/
def macPad (len : Nat) (m : Memory) : Memory :=
  writeBytes m len (0x80 :: List.replicate (macLength len - len - 1) 0x00)

end Sys2Proof.Machine
end

