-- ==== Sys2Proof/Machine/BlockTransform.lean ====
section
/-! DEFINITION. ENCB and DECB (42_block_transforms.md R150, R151). -/

namespace Sys2Proof.Machine

/-- A transform of one DBUF block in place: the context check (R159), the range check (R152), then the transform. -/
def transformBlock (f : Block → Block) (bidx : Nat) (s : State) : Result :=
  if s.ctxv = false then raiseError .noContext s
  else if blockOffset bidx + 16 > s.cfg.dbufBytes then raiseError .range s
  else finishWith ((readBlock s.dbuf (blockOffset bidx)).map fun b =>
    { s with dbuf := writeBlock s.dbuf (blockOffset bidx) (f b) })

/-- ENCB (R150). -/
def execEncb (bidx : Nat) (s : State) : Result := transformBlock (cipher (contextKeys s) s.nr.toNat) bidx s

/-- DECB (R151). -/
def execDecb (bidx : Nat) (s : State) : Result := transformBlock (invCipher (contextKeys s) s.nr.toNat) bidx s

end Sys2Proof.Machine
end

