-- ==== Sys2Proof/Machine/Cbc.lean ====
section
/-! DEFINITION. CBCENC and CBCDEC (43_cbc.md R170 to R179). -/

namespace Sys2Proof.Machine

/-- The loop of CBCENC (R170, R173) over `n` blocks from block `b`, lowest first, in place: block `b - 1` is already
ciphertext when it is the chaining value. -/
def cbcEncryptFrom (enc : Block → Block) (iv : Option Block) : Nat → Nat → Memory → Except Fault Memory
  | 0, _, m => .ok m
  | n + 1, b, m =>
    (readBlock m (16 * b)).bind fun x => (chainBefore iv b m).bind fun c =>
      cbcEncryptFrom enc iv n (b + 1) (writeBlock m (16 * b) (enc (xorChain x c)))

/-- The loop of CBCDEC (R175, R177) over blocks `n - 1` down to 0, in place: block `b - 1` is still ciphertext when it
is the chaining value. -/
def cbcDecryptFrom (dec : Block → Block) (iv : Option Block) : Nat → Memory → Except Fault Memory
  | 0, m => .ok m
  | b + 1, m =>
    (readBlock m (16 * b)).bind fun x => (chainBefore iv b m).bind fun c =>
      cbcDecryptFrom dec iv b (writeBlock m (16 * b) (xorChain (dec x) c))

/-- The effect of CBCENC once its checks pass (R170): pad, encrypt, LEN ← LEN + n. -/
def cbcEncrypt (iven : Bool) (s : State) : Except Fault State :=
  let len := s.len.toNat
  let padded := len + padCount len
  (cbcEncryptFrom (cipher (contextKeys s) s.nr.toNat) (chainingInput iven s) (padded / 16) 0 (cbcPad len s.dbuf)).map
    fun m => { s with dbuf := m, len := BitVec.ofNat 32 padded }

/-- CBCENC (R170): the context check (R159), the capacity check without wrap-around (R171), then the effect. -/
def execCbcenc (iven : Bool) (s : State) : Result :=
  if s.ctxv = false then raiseError .noContext s
  else if s.len.toNat + 16 > s.cfg.dbufBytes then raiseError .bufferTooSmall s
  else finishWith (cbcEncrypt iven s)

/-- The effect of CBCDEC once its checks pass (R175): LEN is not written (R178). -/
def cbcDecrypt (iven : Bool) (s : State) : Except Fault State :=
  (cbcDecryptFrom (invCipher (contextKeys s) s.nr.toNat) (chainingInput iven s) (s.len.toNat / 16) s.dbuf).map
    fun m => { s with dbuf := m }

/-- CBCDEC (R175): the context check (R159), the length checks (R176), then the effect. -/
def execCbcdec (iven : Bool) (s : State) : Result :=
  if s.ctxv = false then raiseError .noContext s
  else if s.len.toNat = 0 ∨ s.len.toNat % 16 ≠ 0 then raiseError .invalidLength s
  else if s.len.toNat > s.cfg.dbufBytes then raiseError .bufferTooSmall s
  else finishWith (cbcDecrypt iven s)

end Sys2Proof.Machine
end

