-- ==== Sys2Proof/Machine/Control.lean ====
section
/-! DEFINITION. NOP and the words that are no command (45_control.md R200, R203). -/

namespace Sys2Proof.Machine

/-- NOP (R200): no effect; it completes with ERR = NONE. -/
def execNop (s : State) : Result := finish s

/-- A reserved or malformed command word (R203, 30_encoding.md R87): ILLEGAL_COMMAND and no other effect. -/
def execIllegal (s : State) : Result := raiseError .illegalCommand s

end Sys2Proof.Machine
end

