-- ==== Sys2Proof/Machine/KeySchedule.lean ====
section
/-! DEFINITION. KEYEXP (41_key_schedule.md R130, R131, R138). -/

namespace Sys2Proof.Machine

/-- R138: the whole context is replaced by what KeyExpand gives. -/
def loadContext (expanded : RoundKeys × Nat) (tweak : Bool) (s : State) : State :=
  { s with rk := packRoundKeys expanded.1, nr := BitVec.ofNat 4 expanded.2, twk := tweak, ctxv := true }

/-- KEYEXP (R130): a key length that is not supported is INVALID_KEY_LENGTH (R131); else the context is built from
KEYB[0 .. 4·Nk). -/
def execKeyexp (tweak : Bool) (nk : Nat) (s : State) : Result :=
  if supportedNk nk then finish (loadContext (keyExpand ((keyQuads s).take nk) nk tweak) tweak s)
  else raiseError .invalidKeyLength s

end Sys2Proof.Machine
end

