-- ==== Sys2Proof/Machine/Mac.lean ====
section
/-! DEFINITION. MAC (44_mac.md R190 to R195). -/

namespace Sys2Proof.Machine

/-- The loop of MAC (R190, R193) over `n` blocks from block `b`: the block is exclusive-or'd into the accumulator, which
is then encrypted. -/
def macFrom (enc : Block → Block) (m : Memory) : Nat → Nat → Block → Except Fault Block
  | 0, _, acc => .ok acc
  | n + 1, b, acc => (readBlock m (16 * b)).bind fun x => macFrom enc m n (b + 1) (enc (blockXor acc x))

/-- The effect of MAC once its check passes (R190): pad in place, chain from a zero block, write TAG. LEN is not
written (R194); the context is not used (R195). -/
def macEffect (s : State) : Except Fault State :=
  let len := s.len.toNat
  let m := macPad len s.dbuf
  let ctx := macContext s.cfg
  (macFrom (cipher ctx.1 ctx.2) m (macLength len / 16) 0 blockZero).map
    fun acc => { s with dbuf := m, tag := packBlock acc }

/-- MAC (R190): the capacity check (R191), then the effect. There is no context check (R195). -/
def execMac (s : State) : Result :=
  if s.len.toNat + 16 > s.cfg.dbufBytes then raiseError .bufferTooSmall s else finishWith (macEffect s)

end Sys2Proof.Machine
end

