-- ==== Sys2Proof/Machine/Dispatch.lean ====
section
/-! DEFINITION. The meaning of each command: what its completion does (45_control.md R202). -/

namespace Sys2Proof.Machine

def exec (i : Instr) (s : State) : Host.Outcome State Fault Refusal :=
  match i with
  | .nop => Sys2Proof.Machine.execNop s
  | .keyexp tweak nk => Sys2Proof.Machine.execKeyexp tweak nk s
  | .encb bidx => Sys2Proof.Machine.execEncb bidx s
  | .decb bidx => Sys2Proof.Machine.execDecb bidx s
  | .cbcenc iven => Sys2Proof.Machine.execCbcenc iven s
  | .cbcdec iven => Sys2Proof.Machine.execCbcdec iven s
  | .mac => Sys2Proof.Machine.execMac s

end Sys2Proof.Machine
end

