-- ==== Sys2Proof/Machine/HostPort.lean ====
section
/-! DEFINITION. The host port: the register map (20_memory.md R51), reads and writes of registers and of the DBUF window
(R52 to R57, R60), the busy discipline (70_reset_and_hazards.md R250 to R252), and the host's pseudo-instructions
(30_encoding.md R89). -/

namespace Sys2Proof.Machine

/-- What a word address selects (R51). -/
inductive Reg where
  | id
  | ctrl
  | status
  | cmd
  | len
  | dbufsz
  | key (k : Fin 8)
  | iv (k : Fin 4)
  | tag (k : Fin 4)
  | rk (k : Fin 60)
  /-- Word `k` of the DBUF window: bytes DBUF[4k .. 4k+4). -/
  | dbuf (k : Nat)
  | reserved
deriving DecidableEq, Repr

/-- The byte address of a word address: bits [1:0] are not wired (R53). -/
def byteAddress (a : BitVec 14) : Nat := 4 * a.toNat

/-- The word address of a byte address. -/
def wordAddress (b : Nat) : BitVec 14 := BitVec.ofNat 14 (b / 4)

/-- The register map on byte addresses (R51), for a buffer of `size` bytes. -/
def regOfByteAddress (size b : Nat) : Reg :=
  if b = 0x000 then .id
  else if b = 0x004 then .ctrl
  else if b = 0x008 then .status
  else if b = 0x00C then .cmd
  else if b = 0x010 then .len
  else if b = 0x014 then .dbufsz
  else if h : 0x020 ≤ b ∧ b < 0x040 then .key ⟨(b - 0x020) / 4, by omega⟩
  else if h : 0x040 ≤ b ∧ b < 0x050 then .iv ⟨(b - 0x040) / 4, by omega⟩
  else if h : 0x050 ≤ b ∧ b < 0x060 then .tag ⟨(b - 0x050) / 4, by omega⟩
  else if h : 0x100 ≤ b ∧ b < 0x1F0 then .rk ⟨(b - 0x100) / 4, by omega⟩
  else if 0x1000 ≤ b ∧ b - 0x1000 < size then .dbuf ((b - 0x1000) / 4)
  else .reserved

/-- What a word address selects in a block with the parameters `c` (R51). -/
def regAt (c : Config) (a : BitVec 14) : Reg := regOfByteAddress c.dbufBytes (byteAddress a)

/-- ID's constant (10_state.md R22). -/
def idValue : Word := 0x41455343

/-- The current value of what is selected, as a host read returns it while BUSY = 0 (R52, R56, R57). A word of the DBUF
window with a byte not written since reset faults (log 6). -/
def readReg (s : State) : Reg → Except Fault Word
  | .id => .ok idValue
  | .ctrl => .ok (BitVec.setWidth 32 (BitVec.ofBool s.ie))
  | .status => .ok (statusWord s)
  | .cmd => .ok s.cmd
  | .len => .ok s.len
  | .dbufsz => .ok (BitVec.ofNat 32 s.cfg.dbufBytes)
  | .key k => .ok s.key[k]
  | .iv k => .ok s.iv[k]
  | .tag k => .ok s.tag[k]
  | .rk k => .ok s.rk[k]
  | .dbuf k => (readQuad s.dbuf (4 * k)).map packQuad
  | .reserved => .ok 0

/-- Reads of KEY*, IV*, TAG*, RK* and the DBUF window are unspecified while BUSY = 1 (R60, 70_reset_and_hazards.md R251). -/
def hiddenWhileBusy : Reg → Bool
  | .key _ => true
  | .iv _ => true
  | .tag _ => true
  | .rk _ => true
  | .dbuf _ => true
  | .id => false
  | .ctrl => false
  | .status => false
  | .cmd => false
  | .len => false
  | .dbufsz => false
  | .reserved => false

/-- A read that returns an unspecified value: a free one (log 5). -/
def readFree (a : BitVec 14) (s : State) : State :=
  { s with rdata := some (Config.freeRead s.draws s a), draws := s.draws + 1 }

/-- A host read of the word address `a` (R51, R54, R60): it changes nothing of the machine. -/
def hostRead (a : BitVec 14) (s : State) : Result :=
  if busy s && hiddenWhileBusy (regAt s.cfg a) then .next (readFree a s)
  else match readReg s (regAt s.cfg a) with
    | .ok v => .next { s with rdata := some v }
    | .error f => .fault f

/-- A write to CMD, LEN, KEY*, IV* or the DBUF window: dropped with OVR ← 1 while BUSY = 1 (R250). -/
def unlessBusy (f : State → State) (s : State) : State := if busy s then overrun s else f s

/-- A host write of `v` to what is selected (R51, R52): CTRL and STATUS at any time (R252), a CMD write accepts a command
(45_control.md R201), a DBUF word is unpacked by R57; RO registers and reserved addresses ignore it. -/
def writeReg (v : Word) (s : State) : Reg → State
  | .ctrl => { s with ie := v.getLsbD 0 }
  | .status => writeStatus v s
  | .cmd => unlessBusy (acceptCommand v) s
  | .len => unlessBusy (fun s => { s with len := v }) s
  | .key k => unlessBusy (fun s => { s with key := s.key.set k v }) s
  | .iv k => unlessBusy (fun s => { s with iv := s.iv.set k v }) s
  | .dbuf k => unlessBusy (fun s => { s with dbuf := writeQuad s.dbuf (4 * k) (unpackWord v) }) s
  | .id => s
  | .dbufsz => s
  | .tag _ => s
  | .rk _ => s
  | .reserved => s

/-- A host write of `v` to the word address `a`. -/
def hostWrite (a : BitVec 14) (v : Word) (s : State) : State := writeReg v s (regAt s.cfg a)

/-- One host access. -/
def hostAccess (x : Access) (s : State) : Result :=
  match x with
  | .rd a => hostRead a s
  | .wr a v => .next (hostWrite a v s)

/-- `poll` in one cycle (30_encoding.md R89): `rd STATUS`, and again in the next cycle when bit 0 of the value read is 1
(log 17). -/
def pollStatus (s : State) : Result :=
  andThen (hostRead (wordAddress 0x008) s) fun t =>
    match t.rdata with
    | some v => .next (if v.getLsbD 0 then { t with host := .poll :: t.host } else t)
    | none => .next t

/-- A cycle with `rst` = 1 (70_reset_and_hazards.md R240, R241): every piece of state takes its reset value, a command in
flight is abandoned, a write has no effect and a read returns an unspecified value (log 5). The host goes on. -/
def resetCycle (x : Option Access) (s : State) : State :=
  let t := { State.resetWith s.cfg with host := s.host, draws := s.draws }
  match x with
  | some (.rd a) => { t with rdata := some (Config.freeRead s.draws s a), draws := s.draws + 1 }
  | some (.wr _ _) => t
  | none => t

/-- `wr` at a byte address (30_encoding.md R89). -/
def HostOp.wr (b : Nat) (v : Word) : HostOp := .access (.wr (wordAddress b) v)

/-- `rd` at a byte address (30_encoding.md R89). -/
def HostOp.rd (b : Nat) : HostOp := .access (.rd (wordAddress b))

/-- `run C` = `wr CMD, word(C)` then `poll` (30_encoding.md R89). -/
def HostOp.run (i : Instr) : List HostOp := [HostOp.wr 0x00C (encode i), .poll]

end Sys2Proof.Machine
end

