-- ==== Sys2Proof/Machine/Cycle.lean ====
section
/-! DEFINITION. One clock cycle (10_state.md R20, 45_control.md R202, 60_exceptions.md R221): the core's part, then the
host's. -/

namespace Sys2Proof.Machine

/-- The completion of the command in flight (45_control.md R202): the word in CMD is decoded and its rule executed. -/
def completeCommand (s : State) : Result :=
  match decode s.cmd with
  | .instr i => exec i s
  | .illegal _ => execIllegal s

/-- The core's part of a cycle: it completes the command in flight when the drawn latency is over (log 4, log 10), else
counts a cycle; with no command in flight it does nothing (10_state.md R20). -/
def coreCycle (s : State) : Result :=
  match s.inflight with
  | none => .next s
  | some 0 => completeCommand s
  | some 1 => completeCommand s
  | some (n + 2) => .next { s with inflight := some (n + 1) }

/-- What the host does in this cycle: idle when its list is at its end (log 3). -/
def hostOp (s : State) : HostOp := s.host.headD .idle

/-- A cycle begins: the host's entry is taken, and no read has been made in it yet (log 3, log 7). -/
def beginCycle (s : State) : State := { s with host := s.host.tail, rdata := none }

/-- One cycle with the host's entry `op` (R221, 70_reset_and_hazards.md R241): reset beats everything; else the core's
completion takes effect first and the host's access second (log 2). -/
def cycle (op : HostOp) (s : State) : Result :=
  match op with
  | .reset x => .next (resetCycle x s)
  | .idle => coreCycle s
  | .access x => andThen (coreCycle s) (hostAccess x)
  | .poll => andThen (coreCycle s) pollStatus

end Sys2Proof.Machine
end

