-- ==== Sys2Proof/Machine/Step.lean ====
section
/-! DEFINITION. One step of the machine is one clock cycle (log 2). -/

namespace Sys2Proof.Machine

/-- One clock cycle. -/
def step (s : State) : Host.Outcome State Fault Refusal := cycle (hostOp s) (beginCycle s)

/-- `s` with the command word `w` in flight, as a CMD write accepted in the cycle before leaves it when the latency drawn
is one cycle, and an idle host in the coming cycle: the next step completes exactly this command (log 12). -/
def State.withFetchWord (s : State) (nbits w : Nat) : State :=
  { s with cmd := tableWord nbits w, inflight := some 1, host := .idle :: s.host }

end Sys2Proof.Machine
end

