-- ==== Sys2Proof/Safety.lean ====
section
/-! DEFINITION. What every state of a run satisfies, and what a safe run is. -/

namespace Sys2Proof.Machine

/-- The context fields agree (10_state.md R24, R32, 41_key_schedule.md R137): with no context, NR = 0, TWK = 0 and RK is
all zero; with one, NR is a round count of R9 and RK is zero beyond the round keys. -/
def ContextOk (s : State) : Prop :=
  (s.ctxv = false → s.nr = 0 ∧ s.twk = false ∧ ∀ k : Fin 60, s.rk[k] = 0) ∧
  (s.ctxv = true → s.nr.toNat ∈ [10, 11, 12, 14] ∧
    ∀ k : Fin 60, 4 * (s.nr.toNat + 1) ≤ k.val → s.rk[k] = 0)

/-- DBUF is in canonical form and inside its capacity (10_state.md R34, 20_memory.md R58). -/
def BufferOk (s : State) : Prop := Memory.wf s.dbuf ∧ Memory.within s.dbuf s.cfg.dbufBytes

/-- While a command is in flight at least one cycle is left, DONE = 0 and ERR = NONE (10_state.md R24, 45_control.md R201). -/
def InflightOk (s : State) : Prop := ∀ n, s.inflight = some n → 1 ≤ n ∧ s.done = false ∧ s.err = .none

/-- The invariant of the machine: legal parameters (00_scope.md R11) and the three conditions above. -/
structure Inv (s : State) : Prop where
  legal : s.cfg.Legal
  context : ContextOk s
  buffer : BufferOk s
  inflight : InflightOk s

/-- `k` steps from `s` stop with no fault and no refusal: no DBUF byte is read before it is written
(70_reset_and_hazards.md R243). -/
def SafeFor : Nat → State → Prop
  | 0, _ => True
  | k + 1, s => ∃ t, step s = .next t ∧ SafeFor k t

/-- DBUF[a .. a+n) has been written since reset (70_reset_and_hazards.md R243). -/
def Written (m : Memory) (a n : Nat) : Prop := ∀ j < n, (memGet m (a + j)).isSome = true

/-- The 16 bytes DBUF[a .. a+16), where all of them are written; the claims use it only there. -/
def blockAt (m : Memory) (a : Nat) : Block := blockOfFn fun j => (memGet m (a + j)).getD 0

/-- `m'` reads as `m` at every offset outside [a, a+n). -/
def SameOutside (m m' : Memory) (a n : Nat) : Prop := ∀ j, ¬ (a ≤ j ∧ j < a + n) → memGet m' j = memGet m j

/-- Byte `i` of the padded plaintext of CBCENC (43_cbc.md R172): the message, then pad bytes equal to their number. -/
def cbcPlainByte (s : State) (i : Nat) : Byte :=
  if i < s.len.toNat then (memGet s.dbuf i).getD 0 else BitVec.ofNat 8 (16 - s.len.toNat % 16)

/-- Block `b` of the padded plaintext of CBCENC. -/
def cbcPlainBlock (s : State) (b : Nat) : Block := blockOfFn fun j => cbcPlainByte s (16 * b + j)

/-- Byte `i` of the padded message of MAC (44_mac.md R192): the message, 0x80, zeros. -/
def macPlainByte (s : State) (i : Nat) : Byte :=
  if i < s.len.toNat then (memGet s.dbuf i).getD 0 else if i = s.len.toNat then 0x80 else 0x00

/-- Block `b` of the padded message of MAC. -/
def macPlainBlock (s : State) (b : Nat) : Block := blockOfFn fun j => macPlainByte s (16 * b + j)

/-- The checks of a command in the order of 60_exceptions.md R213: whether the check is violated, and its code. The
first one is that of the word itself. -/
def commandChecks (s : State) : List (Bool × ErrCode) :=
  match decode s.cmd with
  | .illegal _ => [(true, .illegalCommand)]
  | .instr .nop => []
  | .instr (.keyexp _ nk) => [(nk ≠ 4 && nk ≠ 5 && nk ≠ 6 && nk ≠ 8, .invalidKeyLength)]
  | .instr (.encb b) => [(!s.ctxv, .noContext), (decide (s.cfg.dbufBytes < 16 * b + 16), .range)]
  | .instr (.decb b) => [(!s.ctxv, .noContext), (decide (s.cfg.dbufBytes < 16 * b + 16), .range)]
  | .instr (.cbcenc _) => [(!s.ctxv, .noContext), (decide (s.cfg.dbufBytes < s.len.toNat + 16), .bufferTooSmall)]
  | .instr (.cbcdec _) =>
    [(!s.ctxv, .noContext), (decide (s.len.toNat = 0) || decide (s.len.toNat % 16 ≠ 0), .invalidLength),
      (decide (s.cfg.dbufBytes < s.len.toNat), .bufferTooSmall)]
  | .instr .mac => [(decide (s.cfg.dbufBytes < s.len.toNat + 16), .bufferTooSmall)]

/-- The code of the first check that is violated, if any (R213). -/
def firstViolation : List (Bool × ErrCode) → Option ErrCode
  | [] => none
  | (violated, code) :: rest => if violated then some code else firstViolation rest

end Sys2Proof.Machine
end

