-- ==== Sys2Proof/Certificates/Slice0/Obligations.lean ====
section
/-! DEFINITION. The statements for the provers. Each docstring names the rules of spec/ it formalises. In the statements
about one cycle, `coreCycle (beginCycle s) = .next u` says that `u` is the state after the core's part of the cycle and
before the host's access (60_exceptions.md R221). -/

open Sys2Proof Sys2Proof.Machine

/-! ### Encoding -/

/-- R80, R86, R89: decoding the word of a well-formed command gives that command, for every operand value. -/
def Obligations.DecodeOfEncode : Prop :=
  ∀ i : Instr, i.wellFormed = true → decode (encode i) = .instr i

/-- R80 to R86: the word of a command that the decoder reads is the word it read, and its operands fit their fields. -/
def Obligations.EncodeOfDecode : Prop :=
  ∀ (w : Word) (i : Instr), decode w = .instr i → i.wellFormed = true ∧ encode i = w

/-- R88: the decoder gives the row of R86 whose match and mask accept the word, Illegal when no row does, and at most one
row accepts a word. -/
def Obligations.DecodeFollowsOpcodeMap : Prop :=
  ∀ w : Word,
    (∀ i, decode w = .instr i → (opcodeRow i).accepts w = true ∧ opcodeRow i ∈ opcodeTable) ∧
    (∀ r ∈ opcodeTable, r.accepts w = true → ∃ i, decode w = .instr i ∧ opcodeRow i = r) ∧
    ((∀ r ∈ opcodeTable, r.accepts w = false) → ∃ why, decode w = .illegal why) ∧
    (∀ r ∈ opcodeTable, ∀ r' ∈ opcodeTable, r.accepts w = true → r'.accepts w = true → r = r')

/-- R90: the spec's examples, and what the words it calls illegal and failing do. -/
def Obligations.EncodingExamples : Prop :=
  decode 0x00000401 = .instr (.keyexp false 4) ∧ decode 0x00000421 = .instr (.keyexp true 4) ∧
  decode 0x00000501 = .instr (.keyexp false 5) ∧ decode 0x00000601 = .instr (.keyexp false 6) ∧
  decode 0x00000801 = .instr (.keyexp false 8) ∧ decode 0x00030002 = .instr (.encb 3) ∧
  decode 0x00000003 = .instr (.decb 0) ∧ decode 0x00000014 = .instr (.cbcenc true) ∧
  decode 0x00000015 = .instr (.cbcdec true) ∧ decode 0x00000006 = .instr .mac ∧
  decode 0x00000016 = .illegal .unusedBit ∧ decode 0x00000701 = .instr (.keyexp false 7) ∧
  ∀ s, exec (.keyexp false 7) s = .next { s with err := .invalidKeyLength, inflight := none, done := true }

/-- R89: the words of the assembler syntax, and the expansion of `run` and `poll`. -/
def Obligations.AssemblerSyntax : Prop :=
  encode .nop = 0x00000000 ∧
  (∀ nk < 16, encode (.keyexp false nk) = 0x00000001 ||| BitVec.ofNat 32 nk <<< 8 ∧
    encode (.keyexp true nk) = 0x00000021 ||| BitVec.ofNat 32 nk <<< 8) ∧
  (∀ b < 65536, encode (.encb b) = 0x00000002 ||| BitVec.ofNat 32 b <<< 16 ∧
    encode (.decb b) = 0x00000003 ||| BitVec.ofNat 32 b <<< 16) ∧
  encode (.cbcenc false) = 0x00000004 ∧ encode (.cbcenc true) = 0x00000014 ∧
  encode (.cbcdec false) = 0x00000005 ∧ encode (.cbcdec true) = 0x00000015 ∧
  encode .mac = 0x00000006 ∧
  (∀ i, HostOp.run i = [.access (.wr (wordAddress 0x00C) (encode i)), .poll]) ∧
  ∀ s u, coreCycle (beginCycle s) = .next u → hostOp s = .poll →
    step s = .next { u with
      rdata := some (statusWord u)
      host := if (statusWord u).getLsbD 0 then .poll :: u.host else u.host }

/-! ### The command protocol -/

/-- R202, R221: when the latency is over and CMD holds the word of a command, the step is the command's meaning, followed
by the host's access of that cycle if there is one. R20, R235: with no command in flight the core does nothing, so a step
with an idle host keeps all state; with more than one cycle of latency left it counts a cycle and does nothing else. That a
step is one cycle, that it takes one entry of the host's list and that it empties the read-data port are the model's choices
(log 2, log 3, log 7). -/
def Obligations.StepRunsDecodedCommand : Prop :=
  (∀ (s : State) (n : Nat) (i : Instr), s.inflight = some n → n ≤ 1 → decode s.cmd = .instr i →
    (hostOp s = .idle → step s = exec i (beginCycle s)) ∧
    (∀ x, hostOp s = .access x → step s = andThen (exec i (beginCycle s)) (hostAccess x)) ∧
    (hostOp s = .poll → step s = andThen (exec i (beginCycle s)) pollStatus)) ∧
  (∀ s : State, s.inflight = none →
    coreCycle (beginCycle s) = .next (beginCycle s) ∧
    (hostOp s = .idle → step s = .next { s with host := s.host.tail, rdata := none })) ∧
  ∀ (s : State) (n : Nat), s.inflight = some (n + 2) →
    coreCycle (beginCycle s) = .next { beginCycle s with inflight := some (n + 1) } ∧
    (hostOp s = .idle → step s = .next { s with inflight := some (n + 1), host := s.host.tail, rdata := none })

/-- R203: a word that no row of R86 accepts completes with ILLEGAL_COMMAND and no other effect. -/
def Obligations.IllegalWordsCompleteWithError : Prop :=
  ∀ (s : State) (n : Nat), s.inflight = some n → n ≤ 1 → (∀ r ∈ opcodeTable, r.accepts s.cmd = false) →
    hostOp s = .idle →
    step s = .next { s with
      err := .illegalCommand, inflight := none, done := true, host := s.host.tail, rdata := none }

/-- R201: a CMD write while BUSY = 0 is accepted whatever the word is, with a latency of at least one cycle; one while
BUSY = 1 is not. -/
def Obligations.AcceptanceOfCommands : Prop :=
  ∀ (s u : State) (w : Word), coreCycle (beginCycle s) = .next u →
    hostOp s = .access (.wr (wordAddress 0x00C) w) →
    (busy u = false → ∃ latency, 1 ≤ latency ∧ step s = .next { u with
      cmd := w, done := false, err := .none, inflight := some latency, draws := u.draws + 1 }) ∧
    (busy u = true → step s = .next { u with ovr := true })

/-- R13, R202, R260: with the host idle, a command whose remaining latency is `n + 1` completes in exactly the step
`n + 1` from now: the run of that many steps is the completion of the command. -/
def Obligations.CompletionAfterDrawnLatency : Prop :=
  ∀ (n : Nat) (s : State), s.host = [] → s.inflight = some (n + 1) →
    Sys2Proof.core.run (n + 1) s = completeCommand { s with inflight := some 1, rdata := none }

/-- R202: no effect of a command is visible before its completion, whatever the host does meanwhile short of reset. -/
def Obligations.NoEffectBeforeCompletion : Prop :=
  ∀ (s t : State) (n : Nat), s.inflight = some (n + 2) → (∀ x, hostOp s ≠ .reset x) → step s = .next t →
    t.inflight = some (n + 1) ∧ (t.done = true → s.done = true) ∧ t.ctxv = s.ctxv ∧ t.twk = s.twk ∧ t.err = s.err ∧
    t.nr = s.nr ∧ t.cmd = s.cmd ∧ t.len = s.len ∧ t.key = s.key ∧ t.iv = s.iv ∧ t.tag = s.tag ∧ t.rk = s.rk ∧
    t.dbuf = s.dbuf ∧ t.cfg = s.cfg

/-! ### The host port -/

/-- R51: the register map, at every word address of the host register space. -/
def Obligations.RegisterMap : Prop :=
  ∀ c : Config, c.Legal →
    regAt c (wordAddress 0x000) = .id ∧ regAt c (wordAddress 0x004) = .ctrl ∧
    regAt c (wordAddress 0x008) = .status ∧ regAt c (wordAddress 0x00C) = .cmd ∧
    regAt c (wordAddress 0x010) = .len ∧ regAt c (wordAddress 0x014) = .dbufsz ∧
    (∀ k : Fin 8, regAt c (wordAddress (0x020 + 4 * k)) = .key k) ∧
    (∀ k : Fin 4, regAt c (wordAddress (0x040 + 4 * k)) = .iv k) ∧
    (∀ k : Fin 4, regAt c (wordAddress (0x050 + 4 * k)) = .tag k) ∧
    (∀ k : Fin 60, regAt c (wordAddress (0x100 + 4 * k)) = .rk k) ∧
    (∀ k, 4 * k < c.dbufBytes → regAt c (wordAddress (0x1000 + 4 * k)) = .dbuf k) ∧
    (∀ b, (0x018 ≤ b ∧ b ≤ 0x01C) ∨ (0x060 ≤ b ∧ b ≤ 0x0FC) ∨ (0x1F0 ≤ b ∧ b ≤ 0xFFC) ∨
        (0x1000 + c.dbufBytes ≤ b ∧ b ≤ 0xFFFC) →
      regAt c (wordAddress b) = .reserved)

/-- R52: a reserved address reads 0 and ignores writes, an RO register ignores writes, and the reserved bits of CTRL and
STATUS read 0 and ignore writes. -/
def Obligations.ReservedAndReadOnly : Prop :=
  (∀ (s u : State) (a : BitVec 14), coreCycle (beginCycle s) = .next u → hostOp s = .access (.rd a) →
    regAt u.cfg a = .reserved → step s = .next { u with rdata := some 0 }) ∧
  (∀ (s u : State) (a : BitVec 14) (v : Word), coreCycle (beginCycle s) = .next u → hostOp s = .access (.wr a v) →
    (regAt u.cfg a = .reserved ∨ regAt u.cfg a = .id ∨ regAt u.cfg a = .dbufsz ∨ (∃ k, regAt u.cfg a = .tag k) ∨
      (∃ k, regAt u.cfg a = .rk k)) → step s = .next u) ∧
  (∀ (s u : State) (v : Word), coreCycle (beginCycle s) = .next u →
    hostOp s = .access (.wr (wordAddress 0x004) v) → step s = .next { u with ie := v.getLsbD 0 }) ∧
  (∀ (s u : State) (v : Word), coreCycle (beginCycle s) = .next u →
    hostOp s = .access (.wr (wordAddress 0x008) v) →
    ∃ d o, step s = .next { u with done := d, ovr := o }) ∧
  (∀ (s u : State), coreCycle (beginCycle s) = .next u → hostOp s = .access (.rd (wordAddress 0x004)) →
    ∃ v : Word, step s = .next { u with rdata := some v } ∧ v &&& 0xFFFFFFFE = 0) ∧
  ∀ s, statusWord s &&& 0xFFF0F0E0 = 0

/-- R23, R26, R28, R29: what a host write to LEN, KEYk or IVk does while BUSY = 0: that register holds the word written, all
else is unchanged. -/
def Obligations.RegisterWrites : Prop :=
  ∀ (s u : State) (a : BitVec 14) (v : Word), coreCycle (beginCycle s) = .next u → hostOp s = .access (.wr a v) →
    busy u = false →
    (regAt u.cfg a = .len → step s = .next { u with len := v }) ∧
    (∀ k : Fin 8, regAt u.cfg a = .key k → ∃ t, step s = .next t ∧ t = { u with key := t.key } ∧ t.key[k] = v ∧
      ∀ j : Fin 8, j ≠ k → t.key[j] = u.key[j]) ∧
    (∀ k : Fin 4, regAt u.cfg a = .iv k → ∃ t, step s = .next t ∧ t = { u with iv := t.iv } ∧ t.iv[k] = v ∧
      ∀ j : Fin 4, j ≠ k → t.iv[j] = u.iv[j])

/-- R22, R23, R25 to R29, R31, R32, R54: what a host read returns while BUSY = 0; it changes nothing but the read-data port. -/
def Obligations.RegisterReads : Prop :=
  ∀ (s u : State) (a : BitVec 14), coreCycle (beginCycle s) = .next u → hostOp s = .access (.rd a) →
    busy u = false →
    (regAt u.cfg a = .id → step s = .next { u with rdata := some 0x41455343 }) ∧
    (regAt u.cfg a = .ctrl → step s = .next { u with rdata := some (if u.ie then 1 else 0) }) ∧
    (regAt u.cfg a = .status → step s = .next { u with rdata := some (statusWord u) }) ∧
    (regAt u.cfg a = .cmd → step s = .next { u with rdata := some u.cmd }) ∧
    (regAt u.cfg a = .len → step s = .next { u with rdata := some u.len }) ∧
    (regAt u.cfg a = .dbufsz → step s = .next { u with rdata := some (BitVec.ofNat 32 u.cfg.dbufBytes) }) ∧
    (∀ k, regAt u.cfg a = .key k → step s = .next { u with rdata := some u.key[k] }) ∧
    (∀ k, regAt u.cfg a = .iv k → step s = .next { u with rdata := some u.iv[k] }) ∧
    (∀ k, regAt u.cfg a = .tag k → step s = .next { u with rdata := some u.tag[k] }) ∧
    (∀ k, regAt u.cfg a = .rk k → step s = .next { u with rdata := some u.rk[k] })

/-- R57: the DBUF window while BUSY = 0, read and written in the little-endian packing. -/
def Obligations.DbufWindow : Prop :=
  (∀ (s u : State) (k : Nat) (b0 b1 b2 b3 : Byte), s.cfg.Legal → coreCycle (beginCycle s) = .next u → busy u = false →
    4 * k < u.cfg.dbufBytes → hostOp s = .access (.rd (wordAddress (0x1000 + 4 * k))) →
    memGet u.dbuf (4 * k) = some b0 → memGet u.dbuf (4 * k + 1) = some b1 → memGet u.dbuf (4 * k + 2) = some b2 →
    memGet u.dbuf (4 * k + 3) = some b3 →
    step s = .next { u with rdata := some (b3 ++ b2 ++ b1 ++ b0) }) ∧
  (∀ (s u : State) (k : Nat) (v : Word), s.cfg.Legal → coreCycle (beginCycle s) = .next u → busy u = false →
    4 * k < u.cfg.dbufBytes → hostOp s = .access (.wr (wordAddress (0x1000 + 4 * k)) v) →
    ∃ t, step s = .next t ∧ t = { u with dbuf := t.dbuf } ∧
      (∀ j < 4, memGet t.dbuf (4 * k + j) = some (v.extractLsb' (8 * j) 8)) ∧ SameOutside u.dbuf t.dbuf (4 * k) 4)

/-- R250: while BUSY = 1 a write to CMD, LEN, KEY, IV or the DBUF window is dropped and sets OVR, the command in flight
goes on; one to an RO or reserved address has no effect and does not set OVR. -/
def Obligations.BusyDiscipline : Prop :=
  ∀ (s u : State) (a : BitVec 14) (v : Word), coreCycle (beginCycle s) = .next u → busy u = true →
    hostOp s = .access (.wr a v) →
    match regAt u.cfg a with
    | .cmd | .len | .key _ | .iv _ | .dbuf _ => step s = .next { u with ovr := true }
    | .id | .dbufsz | .tag _ | .rk _ | .reserved => step s = .next u
    | .ctrl | .status => ∃ t, step s = .next t ∧ t.inflight = u.inflight

/-- R60: reads while BUSY = 1: STATUS, CTRL, ID, DBUFSZ, CMD and LEN give their current value, the others an unspecified one. -/
def Obligations.BusyReads : Prop :=
  ∀ (s u : State) (a : BitVec 14), coreCycle (beginCycle s) = .next u → busy u = true → hostOp s = .access (.rd a) →
    match regAt u.cfg a with
    | .id => step s = .next { u with rdata := some 0x41455343 }
    | .ctrl => step s = .next { u with rdata := some (if u.ie then 1 else 0) }
    | .status => step s = .next { u with rdata := some (statusWord u) }
    | .cmd => step s = .next { u with rdata := some u.cmd }
    | .len => step s = .next { u with rdata := some u.len }
    | .dbufsz => step s = .next { u with rdata := some (BitVec.ofNat 32 u.cfg.dbufBytes) }
    | .key _ | .iv _ | .tag _ | .rk _ | .dbuf _ =>
      ∃ v, step s = .next { u with rdata := some v, draws := u.draws + 1 }
    | .reserved => step s = .next { u with rdata := some 0 }

/-- R24, R210: where the fields of STATUS stand in the word the host reads, and the number of each error code. -/
def Obligations.StatusLayout : Prop :=
  ∀ s : State,
    (statusWord s).getLsbD 0 = s.inflight.isSome ∧ (statusWord s).getLsbD 1 = s.done ∧
    (statusWord s).getLsbD 2 = s.ctxv ∧ (statusWord s).getLsbD 3 = s.ovr ∧ (statusWord s).getLsbD 4 = s.twk ∧
    (statusWord s).extractLsb' 16 4 = s.nr ∧
    (statusWord s).extractLsb' 8 4 = match s.err with
      | .none => 0
      | .invalidKeyLength => 1
      | .bufferTooSmall => 2
      | .noContext => 3
      | .invalidLength => 4
      | .illegalCommand => 5
      | .range => 6

/-- R252: CTRL may be written and STATUS.OVR cleared at any time, BUSY or not, with effect in the same cycle; writing 1 to
DONE while BUSY = 1 has no effect, since DONE is 0 then. -/
def Obligations.ControlWritesAtAnyTime : Prop :=
  ∀ (s u : State) (v : Word), coreCycle (beginCycle s) = .next u →
    (hostOp s = .access (.wr (wordAddress 0x004) v) → step s = .next { u with ie := v.getLsbD 0 }) ∧
    (hostOp s = .access (.wr (wordAddress 0x008) v) → ∃ t, step s = .next t ∧
      t = { u with done := t.done, ovr := t.ovr } ∧ t.ovr = (u.ovr && !v.getLsbD 3) ∧
      t.done = (u.done && !v.getLsbD 1) ∧ (InflightOk u → busy u = true → t = { u with ovr := t.ovr }))

/-- R220: `irq` is DONE and IE, a level; a completion raises it when IE = 1, and a write of 1 to DONE, the acceptance of
the next command, and reset clear it. -/
def Obligations.IrqLevel : Prop :=
  (∀ s, irq s = ((statusWord s).getLsbD 1 && s.ie)) ∧
  (∀ s t, completeCommand s = .next t → irq t = s.ie) ∧
  (∀ s v, v.getLsbD 1 = true → irq (writeStatus v s) = false) ∧
  (∀ s w, irq (acceptCommand w s) = false) ∧
  ∀ s x, irq (resetCycle x s) = false

/-- R221: in a cycle in which a command completes and the host accesses the block, the completion comes first: a read sees
BUSY = 0 and the results, a CMD write is accepted; reset in that cycle beats both. -/
def Obligations.CompletionBeforeAccess : Prop :=
  (∀ (s u : State) (n : Nat), s.inflight = some n → n ≤ 1 → completeCommand (beginCycle s) = .next u →
    busy u = false ∧ (statusWord u).getLsbD 0 = false ∧
    (∀ x, hostOp s = .access x → step s = hostAccess x u) ∧
    (hostOp s = .access (.rd (wordAddress 0x008)) → step s = .next { u with rdata := some (statusWord u) }) ∧
    (∀ w, hostOp s = .access (.wr (wordAddress 0x00C) w) → ∃ latency, 1 ≤ latency ∧ step s = .next { u with
      cmd := w, done := false, err := .none, inflight := some latency, draws := u.draws + 1 })) ∧
  ∀ (s : State) (x : Option Access), hostOp s = .reset x → ∃ t, step s = .next t ∧ t.inflight = none ∧ t.cmd = 0 ∧
    statusWord t = 0 ∧ t.len = 0 ∧ ∀ i, memGet t.dbuf i = none

/-! ### Reset and the whole machine -/

/-- R240, R241: in a cycle with `rst` = 1 every piece of state takes its reset value, even with a command in flight, DBUF
holds no defined byte, a host write has no effect and a host read returns some value. The last two clauses are the model's
choices: the host's list goes on by one entry (log 3), and the read-data port holds a value exactly when the cycle makes a read
(log 7, log 18). -/
def Obligations.ResetValues : Prop :=
  ∀ (s : State) (x : Option Access), hostOp s = .reset x →
    ∃ t, step s = .next t ∧ t.cfg = s.cfg ∧ t.ie = false ∧ statusWord t = 0 ∧ t.cmd = 0 ∧ t.len = 0 ∧
      (∀ k : Fin 8, t.key[k] = 0) ∧ (∀ k : Fin 4, t.iv[k] = 0) ∧ (∀ k : Fin 4, t.tag[k] = 0) ∧
      (∀ k : Fin 60, t.rk[k] = 0) ∧ t.inflight = none ∧ irq t = false ∧ (∀ i, memGet t.dbuf i = none) ∧
      t.host = s.host.tail ∧ ((∃ a, x = some (.rd a)) ↔ t.rdata.isSome = true)

/-- The invariant holds right after reset, on the platform and for any legal parameters (the model's `Inv`: R11, R24, R32,
R34, R40). -/
def Obligations.ResetSatisfiesInv : Prop :=
  Inv State.reset ∧ ∀ c : Config, c.Legal → Inv (State.resetWith c)

/-- Every step keeps the invariant: legal parameters, a consistent context (R24, R32, R137), a canonical DBUF inside its
capacity (R34, R58), and DONE = 0 and ERR = 0 while a command is in flight (R201). -/
def Obligations.StepKeepsInv : Prop :=
  ∀ s t : State, Inv s → step s = .next t → Inv t

/-- R38, R242: the parameters DBUF_BYTES and V4_KEY never change. -/
def Obligations.ParametersNeverChange : Prop :=
  ∀ s t : State, step s = .next t → t.cfg = s.cfg

/-- R32, R24: short of reset, only the completion of a KEYEXP with a supported key length writes the context, and it
sets CTXV: CTXV is never cleared otherwise. -/
def Obligations.ContextWrittenOnlyByKeyexp : Prop :=
  ∀ s t : State, step s = .next t → (∀ x, hostOp s ≠ .reset x) →
    (t.rk = s.rk ∧ t.nr = s.nr ∧ t.twk = s.twk ∧ t.ctxv = s.ctxv) ∨
    ((∃ n, s.inflight = some n ∧ n ≤ 1) ∧ t.ctxv = true ∧
      ∃ tweak nk, decode s.cmd = .instr (.keyexp tweak nk) ∧ supportedNk nk)

/-- R31: short of reset, TAG is written only by a MAC command that completes without error. -/
def Obligations.TagWrittenOnlyByMac : Prop :=
  ∀ s t : State, step s = .next t → (∀ x, hostOp s ≠ .reset x) → t.tag ≠ s.tag →
    (∃ n, s.inflight = some n ∧ n ≤ 1) ∧ decode s.cmd = .instr .mac ∧ s.len.toNat + 16 ≤ s.cfg.dbufBytes

/-- R28, R29, R179: short of reset, KEY is written only by a host write to a KEY register and IV only by one to an IV register,
each while BUSY = 0 after the core's part of the cycle: no command writes them. -/
def Obligations.KeyAndIvWrittenOnlyByHost : Prop :=
  ∀ s t : State, step s = .next t → (∀ x, hostOp s ≠ .reset x) →
    (t.key ≠ s.key → ∃ a v u, hostOp s = .access (.wr a v) ∧ (∃ k, regAt s.cfg a = .key k) ∧
      coreCycle (beginCycle s) = .next u ∧ busy u = false) ∧
    (t.iv ≠ s.iv → ∃ a v u, hostOp s = .access (.wr a v) ∧ (∃ k, regAt s.cfg a = .iv k) ∧
      coreCycle (beginCycle s) = .next u ∧ busy u = false)

/-- R24: OVR is sticky: it is cleared only by reset or by writing 1 to it. -/
def Obligations.OverrunIsSticky : Prop :=
  ∀ s t : State, step s = .next t → (∀ x, hostOp s ≠ .reset x) → s.ovr = true → t.ovr = false →
    ∃ a v, hostOp s = .access (.wr a v) ∧ regAt s.cfg a = .status ∧ v.getLsbD 3 = true

/-- 93_implementation_defined.md I4, R34, R58 (log 6): a step is never refused, and it stops only on a DBUF byte inside the
capacity that has not been written since reset. -/
def Obligations.StepStopsOnlyOnUnwrittenByte : Prop :=
  ∀ s : State, s.cfg.Legal →
    (∀ r, step s ≠ .refused r) ∧
    ∀ f, step s = .fault f → ∃ o, f = .dbufUnwritten o ∧ o < s.cfg.dbufBytes ∧ memGet s.dbuf o = none

/-! ### Errors and frames -/

/-- R212: a command that completes with an error code has no effect on any state but ERR, BUSY and DONE. -/
def Obligations.FailedCommandTouchesNothing : Prop :=
  ∀ s t : State, completeCommand s = .next t → t.err ≠ .none →
    t = { s with err := t.err, inflight := none, done := true }

/-- R213: a command that violates several checks reports the first in the order of the table, and one that violates none
completes with NONE or stops on an unwritten byte. -/
def Obligations.ErrorPriority : Prop :=
  ∀ s : State,
    (∀ e, firstViolation (commandChecks s) = some e →
      completeCommand s = .next { s with err := e, inflight := none, done := true }) ∧
    (firstViolation (commandChecks s) = none → ∀ t, completeCommand s = .next t → t.err = .none)

/-- The frame of every command (the "Flags written" and corner-case lines of R130, R150, R151, R170, R175, R190, R200):
it completes, and it writes nothing but what is listed. -/
def Obligations.CommandFrames : Prop :=
  ∀ (i : Instr) (s t : State), exec i s = .next t →
    t.done = true ∧ t.inflight = none ∧
    match i with
    | .nop => t = { s with done := t.done, inflight := t.inflight, err := t.err }
    | .keyexp _ _ =>
      t = { s with done := t.done, inflight := t.inflight, err := t.err, rk := t.rk, nr := t.nr, twk := t.twk, ctxv := t.ctxv }
    | .encb b | .decb b =>
      t = { s with done := t.done, inflight := t.inflight, err := t.err, dbuf := t.dbuf } ∧
        SameOutside s.dbuf t.dbuf (blockOffset b) 16
    | .cbcenc _ =>
      t = { s with done := t.done, inflight := t.inflight, err := t.err, dbuf := t.dbuf, len := t.len } ∧
        SameOutside s.dbuf t.dbuf 0 (s.len.toNat + padCount s.len.toNat)
    | .cbcdec _ =>
      t = { s with done := t.done, inflight := t.inflight, err := t.err, dbuf := t.dbuf } ∧
        SameOutside s.dbuf t.dbuf 0 s.len.toNat
    | .mac =>
      t = { s with done := t.done, inflight := t.inflight, err := t.err, dbuf := t.dbuf, tag := t.tag } ∧
        SameOutside s.dbuf t.dbuf s.len.toNat (macLength s.len.toNat - s.len.toNat)

/-- R200: NOP completes, in every state, with ERR = NONE and no other effect. -/
def Obligations.NopCompletes : Prop :=
  ∀ s : State, exec .nop s = .next { s with err := .none, inflight := none, done := true }

/-! ### Key schedule -/

/-- R138: KEYEXP with a supported key length completes and loads the whole context: all 240 bytes of RKB, NR, TWK and CTXV,
and nothing else. -/
def Obligations.KeyexpBuildsContext : Prop :=
  ∀ (tweak : Bool) (nk : Nat) (s : State), supportedNk nk →
    ∃ t, exec (.keyexp tweak nk) s = .next t ∧
      (∀ b < 240, imageByte (contextKeys t) b = imageByte (keyExpand ((keyQuads s).take nk) nk tweak).1 b) ∧
      t.nr.toNat = nk + 6 ∧ t.twk = tweak ∧ t.ctxv = true ∧
      t = { s with rk := t.rk, nr := t.nr, twk := t.twk, ctxv := t.ctxv, err := .none, inflight := none, done := true }

/-- R131: KEYEXP with any other key length completes with INVALID_KEY_LENGTH, and only with those. -/
def Obligations.KeyLengthCheck : Prop :=
  ∀ (tweak : Bool) (nk : Nat) (s : State),
    (nk ∉ [4, 5, 6, 8] →
      exec (.keyexp tweak nk) s = .next { s with err := .invalidKeyLength, inflight := none, done := true }) ∧
    (nk ∈ [4, 5, 6, 8] → ∃ t, exec (.keyexp tweak nk) s = .next t ∧ t.err = .none)

/-- R133 to R135, R137: the words of an expansion: the key's words first, then the recurrence with its one
rotate-and-substitute step at multiples of Nk, then zeros up to 60 words; and Nr = Nk + 6. -/
def Obligations.KeyScheduleRecurrence : Prop :=
  ∀ (key : List Quad) (nk : Nat), supportedNk nk → key.length = nk →
    (keyExpand key nk false).2 = nk + 6 ∧ (keyExpand key nk false).1.length = 60 ∧
    ∀ i < 60,
      (keyExpand key nk false).1.getD i quadZero =
        if i < nk then key.getD i quadZero
        else if i < 4 * (nk + 7) then
          let w := fun j => (keyExpand key nk false).1.getD j quadZero
          quadXor (w (i - nk))
            (if i % nk = 0 then
              ⟨sbox (w (i - 1)).t1 ^^^ rcon (i / nk), sbox (w (i - 1)).t2, sbox (w (i - 1)).t3, sbox (w (i - 1)).t0⟩
            else w (i - 1))
        else quadZero

/-- R140: the tweak changes bytes 64, 96 and 128 of the image by 0x73, 0x09 and 0xE4 and no other byte; the three offsets lie
inside the round-key sequence. -/
def Obligations.TweakChangesThreeBytes : Prop :=
  ∀ (key : List Quad) (nk : Nat), supportedNk nk → key.length = nk →
    128 < 16 * (nk + 7) ∧
    ∀ b < 240, imageByte (keyExpand key nk true).1 b = imageByte (keyExpand key nk false).1 b ^^^
      (if b = 64 then 0x73 else if b = 96 then 0x09 else if b = 128 then 0xE4 else 0)

/-- R142: the worked examples of the expansion: W[Nk] .. W[Nk+3] and the last word. -/
def Obligations.KeyScheduleExamples : Prop :=
  let counting := fun n : Nat => quadsOfBytes ((List.range n).map (BitVec.ofNat 8))
  let words := fun (k : RoundKeys) (nk : Nat) => [nk, nk + 1, nk + 2, nk + 3, 4 * (nk + 7) - 1].map fun i => k.getD i quadZero
  words (keyExpand [⟨0x2b, 0x7e, 0x15, 0x16⟩, ⟨0x28, 0xae, 0xd2, 0xa6⟩, ⟨0xab, 0xf7, 0x15, 0x88⟩, ⟨0x09, 0xcf, 0x4f, 0x3c⟩]
      4 false).1 4 =
    [⟨0xa0, 0xfa, 0xfe, 0x17⟩, ⟨0x88, 0x54, 0x2c, 0xb1⟩, ⟨0x23, 0xa3, 0x39, 0x39⟩, ⟨0x2a, 0x6c, 0x76, 0x05⟩,
      ⟨0xb6, 0x63, 0x0c, 0xa6⟩] ∧
  words (keyExpand (counting 20) 5 false).1 5 =
    [⟨0x83, 0xc8, 0x7f, 0xc9⟩, ⟨0x87, 0xcd, 0x79, 0xce⟩, ⟨0x8f, 0xc4, 0x73, 0xc5⟩, ⟨0x83, 0xc9, 0x7d, 0xca⟩,
      ⟨0x12, 0x32, 0x13, 0x89⟩] ∧
  words (keyExpand (counting 24) 6 false).1 6 =
    [⟨0x58, 0x46, 0xf2, 0xf9⟩, ⟨0x5c, 0x43, 0xf4, 0xfe⟩, ⟨0x54, 0x4a, 0xfe, 0xf5⟩, ⟨0x58, 0x47, 0xf0, 0xfa⟩,
      ⟨0xe3, 0xa4, 0x1d, 0x5d⟩] ∧
  words (keyExpand (counting 32) 8 false).1 8 =
    [⟨0xa5, 0x73, 0xc2, 0x9f⟩, ⟨0xa1, 0x76, 0xc4, 0x98⟩, ⟨0xa9, 0x7f, 0xce, 0x93⟩, ⟨0xa5, 0x72, 0xc0, 0x9c⟩,
      ⟨0xed, 0x77, 0xc6, 0x40⟩]

/-! ### Tables and stages -/

/-- R101, R102: the two substitution tables are inverse permutations of each other, and the S-box of R100 is the field inverse
(0 for 0) followed by the affine map with constant 0x63. -/
def Obligations.SubstitutionTables : Prop :=
  (∀ x : Byte, invSbox (sbox x) = x) ∧ (∀ y : Byte, sbox (invSbox y) = y) ∧
  ∀ x : Byte, ∃ y : Byte, (if x = 0 then y = 0 else gmul x y = 1) ∧
    sbox x = y ^^^ y.rotateLeft 1 ^^^ y.rotateLeft 2 ^^^ y.rotateLeft 3 ^^^ y.rotateLeft 4 ^^^ 0x63

/-- R104: `gmul a c` is the exclusive-or of `xtime^k a` over the bits set in `c`, each constant multiplication is built by its
double-and-combine identity and equals gmul by that constant; the spec's example. -/
def Obligations.ConstantMultiplications : Prop :=
  (∀ a c : Byte, gmul a c =
    ((List.range 8).filter fun k => c.getLsbD k).foldl (fun acc k => acc ^^^ xtime^[k] a) 0) ∧
  (∀ a : Byte, gmul a 2 = xtime a ∧ gmul a 3 = xtime a ^^^ a ∧
    gmul a 0x09 = xtime (xtime (xtime a)) ^^^ a ∧
    gmul a 0x0B = xtime (xtime (xtime a)) ^^^ xtime a ^^^ a ∧
    gmul a 0x0D = xtime (xtime (xtime a)) ^^^ xtime (xtime a) ^^^ a ∧
    gmul a 0x0E = xtime (xtime (xtime a)) ^^^ xtime (xtime a) ^^^ xtime a ∧
    mul2 a = gmul a 2 ∧ mul3 a = gmul a 3 ∧ mul9 a = gmul a 0x09 ∧ mulB a = gmul a 0x0B ∧ mulD a = gmul a 0x0D ∧
    mulE a = gmul a 0x0E) ∧
  gmul 0x57 0x13 = 0xFE

/-- R132: the round-constant table, its recurrence, and where a constant is added: into the first byte of the word. -/
def Obligations.RoundConstants : Prop :=
  (List.range 11).map rcon = [0x00, 0x01, 0x02, 0x04, 0x08, 0x10, 0x20, 0x40, 0x80, 0x1b, 0x36] ∧
  (∀ j, 1 ≤ j → rcon (j + 1) = xtime (rcon j)) ∧
  ∀ j t, rotSub j t = quadXor (rotSub 0 t) ⟨rcon j, 0x00, 0x00, 0x00⟩

/-- R110, R111, R113, R114, R115: the bytewise stages, with the source indexes of ShiftRows and InvShiftRows as the spec
lists them. -/
def Obligations.BytewiseStages : Prop :=
  ∀ (s : Block) (k : RoundKeys) (r : Nat), ∀ i < 16,
    blockByte (subBytes s) i = sbox (blockByte s i) ∧
    blockByte (invSubBytes s) i = invSbox (blockByte s i) ∧
    blockByte (shiftRows s) i = blockByte s ([0, 5, 10, 15, 4, 9, 14, 3, 8, 13, 2, 7, 12, 1, 6, 11].getD i 0) ∧
    blockByte (invShiftRows s) i = blockByte s ([0, 13, 10, 7, 4, 1, 14, 11, 8, 5, 2, 15, 12, 9, 6, 3].getD i 0) ∧
    blockByte (addRoundKey s k r) i = blockByte s i ^^^ imageByte k (16 * r + i)

/-- R112, R116: MixColumns and InvMixColumns, byte by byte, with their coefficients as field multiplications; the spec's
example column. That MixColumns is left out in the last round is in `CipherExamples`. -/
def Obligations.ColumnMixing : Prop :=
  (∀ (s : Block), ∀ c < 4, ∀ j < 4,
    let a := fun n => blockByte s (4 * c + (j + n) % 4)
    blockByte (mixColumns s) (4 * c + j) = gmul (a 0) 2 ^^^ gmul (a 1) 3 ^^^ a 2 ^^^ a 3 ∧
    blockByte (invMixColumns s) (4 * c + j) =
      gmul (a 0) 0x0E ^^^ gmul (a 1) 0x0B ^^^ gmul (a 2) 0x0D ^^^ gmul (a 3) 0x09) ∧
  mixColumn ⟨0xdb, 0x13, 0x53, 0x45⟩ = ⟨0x8e, 0x4d, 0xa1, 0xbc⟩ ∧
  invMixColumn ⟨0x8e, 0x4d, 0xa1, 0xbc⟩ = ⟨0xdb, 0x13, 0x53, 0x45⟩

/-- R117: the inverse laws of the stages, for every state. -/
def Obligations.InverseStageLaws : Prop :=
  ∀ s : Block,
    invSubBytes (subBytes s) = s ∧ subBytes (invSubBytes s) = s ∧
    invShiftRows (shiftRows s) = s ∧ shiftRows (invShiftRows s) = s ∧
    invMixColumns (mixColumns s) = s ∧ mixColumns (invMixColumns s) = s ∧
    ∀ k r, addRoundKey (addRoundKey s k r) k r = s

/-! ### Block transforms -/

/-- R157: the inverse transform undoes the forward one and conversely, for every round-key image and round count, those of
every key, Nk and tweak among them. -/
def Obligations.CipherRoundTrip : Prop :=
  ∀ (k : RoundKeys) (nr : Nat) (b : Block), invCipher k nr (cipher k nr b) = b ∧ cipher k nr (invCipher k nr b) = b

/-- R158: both transforms read only the round keys 0 .. Nr. -/
def Obligations.TransformsReadOnlyRoundKeys : Prop :=
  ∀ (k k' : RoundKeys) (nr : Nat) (b : Block), (∀ i < 16 * (nr + 1), imageByte k i = imageByte k' i) →
    cipher k nr b = cipher k' nr b ∧ invCipher k nr b = invCipher k' nr b

/-- R160: the spec's examples of Cipher, for each key length and the tweak, and the intermediate states of the first
row's round 1. -/
def Obligations.CipherExamples : Prop :=
  let counting := fun n : Nat => quadsOfBytes ((List.range n).map (BitVec.ofNat 8))
  let enc := fun (nk : Nat) (tweak : Bool) => cipher (keyExpand (counting (4 * nk)) nk tweak).1 (nk + 6)
  let p : Block := ⟨⟨0x00, 0x11, 0x22, 0x33⟩, ⟨0x44, 0x55, 0x66, 0x77⟩, ⟨0x88, 0x99, 0xaa, 0xbb⟩, ⟨0xcc, 0xdd, 0xee, 0xff⟩⟩
  enc 4 false p = ⟨⟨0x69, 0xc4, 0xe0, 0xd8⟩, ⟨0x6a, 0x7b, 0x04, 0x30⟩, ⟨0xd8, 0xcd, 0xb7, 0x80⟩, ⟨0x70, 0xb4, 0xc5, 0x5a⟩⟩ ∧
  cipher (keyExpand (List.replicate 4 quadZero) 4 false).1 10 blockZero =
    ⟨⟨0x66, 0xe9, 0x4b, 0xd4⟩, ⟨0xef, 0x8a, 0x2c, 0x3b⟩, ⟨0x88, 0x4c, 0xfa, 0x59⟩, ⟨0xca, 0x34, 0x2b, 0x2e⟩⟩ ∧
  enc 4 true p = ⟨⟨0x14, 0xb9, 0x4d, 0xf2⟩, ⟨0x5e, 0x27, 0xb6, 0x0b⟩, ⟨0x6e, 0xd2, 0x8b, 0x31⟩, ⟨0xde, 0xed, 0xb6, 0xef⟩⟩ ∧
  enc 5 false p = ⟨⟨0x8c, 0x92, 0xfb, 0xee⟩, ⟨0x29, 0x77, 0x45, 0xec⟩, ⟨0xde, 0xf3, 0xce, 0x7b⟩, ⟨0xd6, 0x77, 0x1a, 0x97⟩⟩ ∧
  enc 6 false p = ⟨⟨0xdd, 0xa9, 0x7c, 0xa4⟩, ⟨0x86, 0x4c, 0xdf, 0xe0⟩, ⟨0x6e, 0xaf, 0x70, 0xa0⟩, ⟨0xec, 0x0d, 0x71, 0x91⟩⟩ ∧
  enc 8 false p = ⟨⟨0xeb, 0xbb, 0x61, 0xb1⟩, ⟨0x87, 0x94, 0xd6, 0xe6⟩, ⟨0x7d, 0x2c, 0x1c, 0xf8⟩, ⟨0xee, 0xc9, 0x79, 0x3e⟩⟩ ∧
  let k := (keyExpand (counting 16) 4 false).1
  let s0 := addRoundKey p k 0
  let s1 := subBytes s0
  let s2 := shiftRows s1
  let s3 := mixColumns s2
  s0 = ⟨⟨0x00, 0x10, 0x20, 0x30⟩, ⟨0x40, 0x50, 0x60, 0x70⟩, ⟨0x80, 0x90, 0xa0, 0xb0⟩, ⟨0xc0, 0xd0, 0xe0, 0xf0⟩⟩ ∧
  s1 = ⟨⟨0x63, 0xca, 0xb7, 0x04⟩, ⟨0x09, 0x53, 0xd0, 0x51⟩, ⟨0xcd, 0x60, 0xe0, 0xe7⟩, ⟨0xba, 0x70, 0xe1, 0x8c⟩⟩ ∧
  s2 = ⟨⟨0x63, 0x53, 0xe0, 0x8c⟩, ⟨0x09, 0x60, 0xe1, 0x04⟩, ⟨0xcd, 0x70, 0xb7, 0x51⟩, ⟨0xba, 0xca, 0xd0, 0xe7⟩⟩ ∧
  s3 = ⟨⟨0x5f, 0x72, 0x64, 0x15⟩, ⟨0x57, 0xf5, 0xbc, 0x92⟩, ⟨0xf7, 0xbe, 0x3b, 0x29⟩, ⟨0x1d, 0xb9, 0xf9, 0x1a⟩⟩ ∧
  addRoundKey s3 k 1 =
    ⟨⟨0x89, 0xd8, 0x10, 0xe8⟩, ⟨0x85, 0x5a, 0xce, 0x68⟩, ⟨0x2d, 0x18, 0x43, 0xd8⟩, ⟨0xcb, 0x12, 0x8f, 0xe4⟩⟩

/-- R150: ENCB with a context, on a written block inside DBUF, completes: that block is its Cipher, every other byte and
all other state but BUSY, DONE and ERR are unchanged. -/
def Obligations.EncbEncryptsBlock : Prop :=
  ∀ (b : Nat) (s : State), s.ctxv = true → 16 * b + 16 ≤ s.cfg.dbufBytes → Written s.dbuf (16 * b) 16 →
    ∃ t, exec (.encb b) s = .next t ∧
      t = { s with dbuf := t.dbuf, err := .none, inflight := none, done := true } ∧
      Written t.dbuf (16 * b) 16 ∧
      blockAt t.dbuf (16 * b) = cipher (contextKeys s) s.nr.toNat (blockAt s.dbuf (16 * b)) ∧
      SameOutside s.dbuf t.dbuf (16 * b) 16

/-- R151: DECB with a context, on a written block inside DBUF, completes: that block is its InvCipher, every other byte
and all other state but BUSY, DONE and ERR are unchanged. -/
def Obligations.DecbDecryptsBlock : Prop :=
  ∀ (b : Nat) (s : State), s.ctxv = true → 16 * b + 16 ≤ s.cfg.dbufBytes → Written s.dbuf (16 * b) 16 →
    ∃ t, exec (.decb b) s = .next t ∧
      t = { s with dbuf := t.dbuf, err := .none, inflight := none, done := true } ∧
      Written t.dbuf (16 * b) 16 ∧
      blockAt t.dbuf (16 * b) = invCipher (contextKeys s) s.nr.toNat (blockAt s.dbuf (16 * b)) ∧
      SameOutside s.dbuf t.dbuf (16 * b) 16

/-- R152, R159: the context check of ENCB, DECB, CBCENC and CBCDEC, and the range check of ENCB and DECB, touch nothing; MAC
makes no context check. -/
def Obligations.ContextAndRangeChecks : Prop :=
  (∀ s : State, s.ctxv = false →
    ∀ i, ((∃ b, i = .encb b ∨ i = .decb b) ∨ ∃ v, i = .cbcenc v ∨ i = .cbcdec v) →
      exec i s = .next { s with err := .noContext, inflight := none, done := true }) ∧
  (∀ (s : State) (b : Nat), s.ctxv = true → 16 * b + 16 > s.cfg.dbufBytes →
    exec (.encb b) s = .next { s with err := .range, inflight := none, done := true } ∧
    exec (.decb b) s = .next { s with err := .range, inflight := none, done := true }) ∧
  ∀ s t : State, exec .mac s = .next t → t.err ≠ .noContext

/-! ### CBC -/

/-- R171, R176, R191: the capacity checks of CBCENC and MAC and the length and capacity checks of CBCDEC, which touch
nothing when they fail; a command that passes them does not report them. -/
def Obligations.CapacityAndLengthChecks : Prop :=
  ∀ (s : State) (v : Bool),
    (s.ctxv = true → s.len.toNat + 16 > s.cfg.dbufBytes →
      exec (.cbcenc v) s = .next { s with err := .bufferTooSmall, inflight := none, done := true }) ∧
    (s.len.toNat + 16 > s.cfg.dbufBytes →
      exec .mac s = .next { s with err := .bufferTooSmall, inflight := none, done := true }) ∧
    (s.ctxv = true → s.len.toNat = 0 ∨ s.len.toNat % 16 ≠ 0 →
      exec (.cbcdec v) s = .next { s with err := .invalidLength, inflight := none, done := true }) ∧
    (s.ctxv = true → s.len.toNat ≠ 0 → s.len.toNat % 16 = 0 → s.len.toNat > s.cfg.dbufBytes →
      exec (.cbcdec v) s = .next { s with err := .bufferTooSmall, inflight := none, done := true }) ∧
    (s.len.toNat + 16 ≤ s.cfg.dbufBytes → ∀ t,
      exec (.cbcenc v) s = .next t ∨ exec .mac s = .next t → t.err ≠ .bufferTooSmall) ∧
    (s.len.toNat % 16 = 0 → s.len.toNat ≠ 0 → s.len.toNat ≤ s.cfg.dbufBytes → ∀ t,
      exec (.cbcdec v) s = .next t → t.err ≠ .invalidLength ∧ t.err ≠ .bufferTooSmall)

/-- R170, R172, R173: CBCENC with a context, on a written message with a spare block, completes: LEN grows by the pad
count, block `b` is the Cipher of padded plaintext block `b` chained with the ciphertext block before it (with IVB, if
supplied, for block 0), and every byte beyond is unchanged. -/
def Obligations.CbcencEncryptsPaddedMessage : Prop :=
  ∀ (iven : Bool) (s : State), s.cfg.Legal → s.ctxv = true → s.len.toNat + 16 ≤ s.cfg.dbufBytes →
    Written s.dbuf 0 s.len.toNat →
    ∃ t, exec (.cbcenc iven) s = .next t ∧
      t = { s with dbuf := t.dbuf, len := t.len, err := .none, inflight := none, done := true } ∧
      t.len.toNat = s.len.toNat + (16 - s.len.toNat % 16) ∧ Written t.dbuf 0 t.len.toNat ∧
      (∀ b, 16 * b < t.len.toNat →
        blockAt t.dbuf (16 * b) = cipher (contextKeys s) s.nr.toNat
          (if b = 0 then (if iven then blockXor (cbcPlainBlock s 0) (unpackBlock s.iv) else cbcPlainBlock s 0)
          else blockXor (cbcPlainBlock s b) (blockAt t.dbuf (16 * (b - 1))))) ∧
      SameOutside s.dbuf t.dbuf 0 t.len.toNat

/-- R177, R178: CBCDEC with a context, on a written ciphertext of whole blocks, completes: block `b` is the InvCipher of
ciphertext block `b` chained with the ciphertext block before it as DBUF held it at acceptance (with IVB, if supplied,
for block 0), LEN and every byte beyond are unchanged, and no pad byte is checked. -/
def Obligations.CbcdecDecryptsBlocks : Prop :=
  ∀ (iven : Bool) (s : State), s.ctxv = true → s.len.toNat ≠ 0 → s.len.toNat % 16 = 0 →
    s.len.toNat ≤ s.cfg.dbufBytes → Written s.dbuf 0 s.len.toNat →
    ∃ t, exec (.cbcdec iven) s = .next t ∧
      t = { s with dbuf := t.dbuf, err := .none, inflight := none, done := true } ∧
      Written t.dbuf 0 s.len.toNat ∧
      (∀ b, 16 * b < s.len.toNat →
        let x := invCipher (contextKeys s) s.nr.toNat (blockAt s.dbuf (16 * b))
        blockAt t.dbuf (16 * b) =
          if b = 0 then (if iven then blockXor x (unpackBlock s.iv) else x)
          else blockXor x (blockAt s.dbuf (16 * (b - 1)))) ∧
      SameOutside s.dbuf t.dbuf 0 s.len.toNat

/-- R180: CBCENC then CBCDEC with the same IVEN and IVB gives the message followed by its pad bytes, with LEN at the padded
length. -/
def Obligations.CbcRoundTrip : Prop :=
  ∀ (iven : Bool) (s : State), s.cfg.Legal → s.ctxv = true → s.len.toNat + 16 ≤ s.cfg.dbufBytes →
    Written s.dbuf 0 s.len.toNat →
    ∃ t u, exec (.cbcenc iven) s = .next t ∧ exec (.cbcdec iven) t = .next u ∧
      u.len.toNat = s.len.toNat + (16 - s.len.toNat % 16) ∧
      (∀ i < s.len.toNat, memGet u.dbuf i = memGet s.dbuf i) ∧
      (∀ i, s.len.toNat ≤ i → i < u.len.toNat → memGet u.dbuf i = some (BitVec.ofNat 8 (16 - s.len.toNat % 16))) ∧
      ∀ i, u.len.toNat ≤ i → memGet u.dbuf i = memGet s.dbuf i

/-- R174: IVEN = 0 and IVEN = 1 with an all-zero IVB give the same result, for CBCENC and for CBCDEC. -/
def Obligations.ZeroIvIsNoIv : Prop :=
  ∀ s : State, (∀ k : Fin 4, s.iv[k] = 0) →
    exec (.cbcenc true) s = exec (.cbcenc false) s ∧ exec (.cbcdec true) s = exec (.cbcdec false) s

/-! ### MAC -/

/-- R190, R192, R193, R194: MAC on a written message with a spare block completes, with or without a context: the padding
stands in DBUF, TAG is the CBC-MAC of the padded message under KeyExpand(V4_KEY, 5, 0), LEN and all else are
unchanged. -/
def Obligations.MacComputesTag : Prop :=
  ∀ s : State, s.len.toNat + 16 ≤ s.cfg.dbufBytes → Written s.dbuf 0 s.len.toNat →
    ∃ t, exec .mac s = .next t ∧
      t = { s with dbuf := t.dbuf, tag := t.tag, err := .none, inflight := none, done := true } ∧
      (∀ j, memGet t.dbuf j =
        if s.len.toNat ≤ j ∧ j < 16 * (s.len.toNat / 16) + 16 then some (if j = s.len.toNat then 0x80 else 0x00)
        else memGet s.dbuf j) ∧
      unpackBlock t.tag = (List.range (s.len.toNat / 16 + 1)).foldl
        (fun acc b => cipher (keyExpand (quadsOfBytes s.cfg.v4Key.toList) 5 false).1 11 (blockXor acc (macPlainBlock s b)))
        blockZero

/-- R196: the tag and the padding are a function of V4_KEY, LEN and the message alone. -/
def Obligations.MacDeterminism : Prop :=
  ∀ s s' t t' : State, s.cfg.v4Key = s'.cfg.v4Key → s.len = s'.len →
    (∀ i < s.len.toNat, memGet s.dbuf i = memGet s'.dbuf i) →
    exec .mac s = .next t → exec .mac s' = .next t' → t.err = .none → t'.err = .none →
    t.tag = t'.tag ∧
      ∀ i, s.len.toNat ≤ i → i < 16 * (s.len.toNat / 16) + 16 → memGet t.dbuf i = memGet t'.dbuf i

/-- R195: MAC neither uses nor changes KEY and the context: replacing them by any others commutes with it. -/
def Obligations.MacIndependentOfContext : Prop :=
  ∀ (s t : State) (key : Vector Word 8) (rk : Vector Word 60) (nr : BitVec 4) (twk ctxv : Bool),
    exec .mac s = .next t →
    exec .mac { s with key := key, rk := rk, nr := nr, twk := twk, ctxv := ctxv } =
      .next { t with key := key, rk := rk, nr := nr, twk := twk, ctxv := ctxv }

/-- R30, R56: the byte images of KEY, IV, TAG and RK: byte 4k + j is bits [8j+7 : 8j] of register k; packing puts them
back. -/
def Obligations.RegisterByteImages : Prop :=
  (∀ (s : State) (k j : Nat), j < 4 →
    (∀ h : k < 8, quadByte ((keyQuads s).getD k quadZero) j = (s.key[k]).extractLsb' (8 * j) 8) ∧
    (∀ h : k < 4, blockByte (unpackBlock s.iv) (4 * k + j) = (s.iv[k]).extractLsb' (8 * j) 8) ∧
    (∀ h : k < 4, blockByte (unpackBlock s.tag) (4 * k + j) = (s.tag[k]).extractLsb' (8 * j) 8) ∧
    (∀ h : k < 60, imageByte (contextKeys s) (4 * k + j) = (s.rk[k]).extractLsb' (8 * j) 8)) ∧
  (∀ b : Block, unpackBlock (packBlock b) = b) ∧
  unpackWord 0x03020100 = ⟨0x00, 0x01, 0x02, 0x03⟩
end

