-- ==== Sys2Proof/Laws/Bytes.lean ====
section
/-! SUPPORT. Laws of the byte groups and of the packing of bytes into host words (20_memory.md R56). -/

namespace Sys2Proof.Machine

@[simp] theorem quadByte_quadOfFn_0 (f : Nat → Byte) : quadByte (quadOfFn f) 0 = f 0 := rfl
@[simp] theorem quadByte_quadOfFn_1 (f : Nat → Byte) : quadByte (quadOfFn f) 1 = f 1 := rfl
@[simp] theorem quadByte_quadOfFn_2 (f : Nat → Byte) : quadByte (quadOfFn f) 2 = f 2 := rfl
@[simp] theorem quadByte_quadOfFn_3 (f : Nat → Byte) : quadByte (quadOfFn f) 3 = f 3 := rfl

theorem quadByte_quadXor (p q : Quad) (j : Nat) : quadByte (quadXor p q) j = quadByte p j ^^^ quadByte q j := by
  match j with
  | 0 => rfl
  | 1 => rfl
  | 2 => rfl
  | _ + 3 => rfl

theorem quadXor_assoc (p q r : Quad) : quadXor (quadXor p q) r = quadXor p (quadXor q r) := by
  simp [quadXor, BitVec.xor_assoc]

theorem quadXor_comm (p q : Quad) : quadXor p q = quadXor q p := by
  simp [quadXor, BitVec.xor_comm]

@[simp] theorem quadXor_self (p : Quad) : quadXor p p = quadZero := by
  simp [quadXor, quadZero]

@[simp] theorem quadXor_zero (p : Quad) : quadXor p quadZero = p := by
  simp [quadXor, quadZero]

@[simp] theorem quadZero_xor (p : Quad) : quadXor quadZero p = p := by
  simp [quadXor, quadZero]

theorem blockXor_assoc (s t u : Block) : blockXor (blockXor s t) u = blockXor s (blockXor t u) := by
  simp [blockXor, quadXor_assoc]

theorem blockXor_comm (s t : Block) : blockXor s t = blockXor t s := by
  simp [blockXor, quadXor_comm]

@[simp] theorem blockXor_self (s : Block) : blockXor s s = blockZero := by
  simp [blockXor, blockZero]

@[simp] theorem blockXor_zero (s : Block) : blockXor s blockZero = s := by
  simp [blockXor, blockZero]

@[simp] theorem blockZero_xor (s : Block) : blockXor blockZero s = s := by
  simp [blockXor, blockZero]

/-- Exclusive-or with the same value twice changes nothing (used by AddRoundKey and by CBC). -/
@[simp] theorem blockXor_cancel_right (s t : Block) : blockXor (blockXor s t) t = s := by
  simp [blockXor_assoc]

/-- A block is its sixteen bytes. -/
theorem block_ext_byte {s t : Block} (h : ∀ i < 16, blockByte s i = blockByte t i) : s = t := by
  have h0 := h 0 (by decide); have h1 := h 1 (by decide); have h2 := h 2 (by decide); have h3 := h 3 (by decide)
  have h4 := h 4 (by decide); have h5 := h 5 (by decide); have h6 := h 6 (by decide); have h7 := h 7 (by decide)
  have h8 := h 8 (by decide); have h9 := h 9 (by decide); have h10 := h 10 (by decide); have h11 := h 11 (by decide)
  have h12 := h 12 (by decide); have h13 := h 13 (by decide); have h14 := h 14 (by decide); have h15 := h 15 (by decide)
  obtain ⟨⟨_, _, _, _⟩, ⟨_, _, _, _⟩, ⟨_, _, _, _⟩, ⟨_, _, _, _⟩⟩ := s
  obtain ⟨⟨_, _, _, _⟩, ⟨_, _, _, _⟩, ⟨_, _, _, _⟩, ⟨_, _, _, _⟩⟩ := t
  simp only [blockByte, blockCol, quadByte] at *
  subst_vars
  rfl

/-- Byte `i` of a block given by its bytes. -/
theorem blockByte_blockOfFn (f : Nat → Byte) {i : Nat} (h : i < 16) : blockByte (blockOfFn f) i = f i := by
  have : i ∈ List.range 16 := List.mem_range.mpr h
  revert i
  intro i hi _
  interval_cases i <;> rfl

theorem blockByte_blockXor (s t : Block) (i : Nat) :
    blockByte (blockXor s t) i = blockByte s i ^^^ blockByte t i := by
  unfold blockByte
  rw [← quadByte_quadXor]
  congr 1
  generalize i >>> 2 = c
  match c with
  | 0 => rfl
  | 1 => rfl
  | 2 => rfl
  | _ + 3 => rfl

@[simp] theorem blockBytes_length (s : Block) : (blockBytes s).length = 16 := rfl

theorem blockBytes_getElem? (s : Block) {i : Nat} (h : i < 16) : (blockBytes s)[i]? = some (blockByte s i) := by
  simp [blockBytes, h]

/-- Unpacking what was packed gives the bytes back (R56). -/
@[simp] theorem unpackWord_packQuad (q : Quad) : unpackWord (packQuad q) = q := by
  obtain ⟨a, b, c, d⟩ := q
  simp only [unpackWord, packQuad, Quad.mk.injEq]
  refine ⟨?_, ?_, ?_, ?_⟩ <;>
    (apply BitVec.eq_of_getLsbD_eq; intro i hi; simp only [BitVec.getLsbD_extractLsb', BitVec.getLsbD_append]; interval_cases i <;> simp)

/-- Packing what was unpacked gives the word back (R56). -/
@[simp] theorem packQuad_unpackWord (w : Word) : packQuad (unpackWord w) = w := by
  apply BitVec.eq_of_getLsbD_eq
  intro i hi
  simp only [unpackWord, packQuad, BitVec.getLsbD_extractLsb', BitVec.getLsbD_append]
  interval_cases i <;> simp

@[simp] theorem unpackBlock_packBlock (s : Block) : unpackBlock (packBlock s) = s := by
  simp [unpackBlock, packBlock]

/-- A round-key file that holds an image of 60 words reads back as that image (10_state.md R30). -/
theorem unpack_packRoundKeys {k : RoundKeys} (h : k.length = 60) :
    (packRoundKeys k).toList.map unpackWord = k := by
  have : ((k.map packQuad ++ List.replicate 60 0).take 60) = k.map packQuad := by
    rw [List.take_append_of_le_length (by rw [List.length_map, h]), List.take_of_length_le (by rw [List.length_map, h])]
  simp only [packRoundKeys, Vector.toList_mk, this, List.map_map]
  rw [show unpackWord ∘ packQuad = id from funext fun q => unpackWord_packQuad q, List.map_id]

end Sys2Proof.Machine
end

