-- ==== Sys2Proof/Laws/Memory.lean ====
section
/-! SUPPORT. Laws of the operations over DBUF: read after write, the canonical form, and when a read is answered. -/

namespace Sys2Proof.Machine

/-- Read after write: the byte written, and every other byte as before. -/
theorem memGet_memSet (m : Memory) (i : Nat) (v : Byte) (j : Nat) :
    memGet (memSet m i v) j = if j = i then some v else memGet m j := by
  induction m with
  | nil => simp [memSet, memGet, eq_comm]
  | cons c m ih =>
    obtain ⟨a, b⟩ := c
    rcases Nat.lt_trichotomy i a with h | rfl | h
    · rw [memSet, if_pos h]
      by_cases hj : j = i
      · rw [if_pos hj, memGet, if_pos hj.symm]
      · rw [if_neg hj, memGet, if_neg (Ne.symm hj)]
    · rw [memSet, if_neg (Nat.lt_irrefl i), if_pos rfl]
      by_cases hj : j = i
      · rw [if_pos hj, memGet, if_pos hj.symm]
      · rw [if_neg hj, memGet, if_neg (Ne.symm hj), memGet, if_neg (Ne.symm hj)]
    · rw [memSet, if_neg (by omega), if_neg (by omega), memGet, memGet, ih]
      by_cases hj : j = i
      · rw [if_neg (by omega), if_pos hj, if_pos hj]
      · rw [if_neg hj, if_neg hj]

theorem mem_memSet {m : Memory} {i : Nat} {v : Byte} {c : Host.Cell} (h : c ∈ memSet m i v) : c = (i, v) ∨ c ∈ m := by
  induction m with
  | nil => simpa [memSet] using h
  | cons d m ih =>
    unfold memSet at h
    split_ifs at h
    · simpa using h
    · simp only [List.mem_cons] at h ⊢; tauto
    · simp only [List.mem_cons] at h ⊢; tauto

/-- A write keeps the canonical form. -/
theorem wf_memSet {m : Memory} (h : Memory.wf m) (i : Nat) (v : Byte) : Memory.wf (memSet m i v) := by
  induction m with
  | nil => simp [memSet, Memory.wf]
  | cons c m ih =>
    obtain ⟨a, b⟩ := c
    simp only [Memory.wf, List.map_cons, List.pairwise_cons] at h
    unfold memSet
    split_ifs with h1 h2
    · simp only [Memory.wf, List.map_cons, List.pairwise_cons]
      refine ⟨?_, h⟩
      intro x hx
      rcases List.mem_cons.mp hx with rfl | hx
      · exact h1
      · exact h1.trans (h.1 x hx)
    · subst h2
      simpa only [Memory.wf, List.map_cons, List.pairwise_cons] using h
    · simp only [Memory.wf, List.map_cons, List.pairwise_cons]
      refine ⟨?_, ih h.2⟩
      intro x hx
      obtain ⟨c, hc, rfl⟩ := List.mem_map.mp hx
      rcases mem_memSet hc with rfl | hc
      · show a < i; omega
      · exact h.1 _ (List.mem_map_of_mem hc)

theorem within_memSet {m : Memory} {n i : Nat} (h : Memory.within m n) (hi : i < n) (v : Byte) :
    Memory.within (memSet m i v) n := by
  intro c hc
  rcases mem_memSet hc with rfl | hc
  · exact hi
  · exact h c hc

theorem wf_writeBytes {m : Memory} (h : Memory.wf m) (a : Nat) (l : List Byte) : Memory.wf (writeBytes m a l) := by
  induction l generalizing m a with
  | nil => exact h
  | cons b l ih => exact ih (wf_memSet h a b) (a + 1)

theorem within_writeBytes {m : Memory} {n a : Nat} (h : Memory.within m n) {l : List Byte} (ha : a + l.length ≤ n) :
    Memory.within (writeBytes m a l) n := by
  induction l generalizing m a with
  | nil => exact h
  | cons b l ih =>
    simp only [List.length_cons] at ha
    exact ih (within_memSet h (by omega) b) (by omega)

/-- Read after MemWrite: the byte of the list inside the written region, and every other byte as before. -/
theorem memGet_writeBytes (m : Memory) (a : Nat) (l : List Byte) (j : Nat) :
    memGet (writeBytes m a l) j = if a ≤ j ∧ j < a + l.length then l[j - a]? else memGet m j := by
  induction l generalizing m a with
  | nil => simp only [writeBytes, List.length_nil]; rw [if_neg (by omega)]
  | cons b l ih =>
    simp only [writeBytes, ih, memGet_memSet, List.length_cons]
    by_cases h : j = a
    · subst h; simp
    · by_cases h2 : a + 1 ≤ j ∧ j < a + 1 + l.length
      · rw [if_pos h2, if_pos (by omega), show j - a = (j - (a + 1)) + 1 by omega]; simp
      · rw [if_neg h2, if_neg h, if_neg (by omega)]

theorem memGet_writeBlock (m : Memory) (a : Nat) (s : Block) (j : Nat) :
    memGet (writeBlock m a s) j = if a ≤ j ∧ j < a + 16 then some (blockByte s (j - a)) else memGet m j := by
  rw [writeBlock, memGet_writeBytes, blockBytes_length]
  by_cases h : a ≤ j ∧ j < a + 16
  · rw [if_pos h, if_pos h, blockBytes_getElem? s (by omega)]
  · rw [if_neg h, if_neg h]

theorem wf_writeBlock {m : Memory} (h : Memory.wf m) (a : Nat) (s : Block) : Memory.wf (writeBlock m a s) :=
  wf_writeBytes h a _

theorem within_writeBlock {m : Memory} {n a : Nat} (h : Memory.within m n) (ha : a + 16 ≤ n) (s : Block) :
    Memory.within (writeBlock m a s) n :=
  within_writeBytes h (by simpa using ha)

/-- The window's word write, byte by byte (20_memory.md R57). -/
theorem memGet_writeQuad (m : Memory) (a : Nat) (q : Quad) (j : Nat) :
    memGet (writeQuad m a q) j = if a ≤ j ∧ j < a + 4 then some (quadByte q (j - a)) else memGet m j := by
  simp only [writeQuad, memGet_writeBytes, List.length_cons, List.length_nil]
  split_ifs with h1
  · obtain h | h | h | h : j - a = 0 ∨ j - a = 1 ∨ j - a = 2 ∨ j - a = 3 := by omega
    all_goals rw [h]; rfl
  · rfl

theorem memFetch_eq_ok {m : Memory} {i : Nat} {b : Byte} : memFetch m i = .ok b ↔ memGet m i = some b := by
  unfold memFetch
  cases memGet m i <;> simp

theorem memFetch_eq_error {m : Memory} {i : Nat} {f : Fault} :
    memFetch m i = .error f ↔ memGet m i = none ∧ f = .dbufUnwritten i := by
  unfold memFetch
  cases memGet m i <;> simp [eq_comm]

/-- When a sequence of two reads is answered. -/
theorem except_bind_eq_ok {ε α β : Type} {x : Except ε α} {g : α → Except ε β} {b : β} :
    x.bind g = .ok b ↔ ∃ a, x = .ok a ∧ g a = .ok b := by
  cases x <;> simp [Except.bind]

theorem except_bind_eq_error {ε α β : Type} {x : Except ε α} {g : α → Except ε β} {e : ε} :
    x.bind g = .error e ↔ x = .error e ∨ ∃ a, x = .ok a ∧ g a = .error e := by
  cases x <;> simp [Except.bind]

theorem except_map_eq_ok {ε α β : Type} {x : Except ε α} {g : α → β} {b : β} :
    x.map g = .ok b ↔ ∃ a, x = .ok a ∧ g a = b := by
  cases x <;> simp [Except.map]

theorem except_map_eq_error {ε α β : Type} {x : Except ε α} {g : α → β} {e : ε} :
    x.map g = .error e ↔ x = .error e := by
  cases x <;> simp [Except.map]

theorem readQuad_eq_ok {m : Memory} {a : Nat} {q : Quad} :
    readQuad m a = .ok q ↔
      memGet m a = some q.t0 ∧ memGet m (a + 1) = some q.t1 ∧ memGet m (a + 2) = some q.t2 ∧
        memGet m (a + 3) = some q.t3 := by
  obtain ⟨t0, t1, t2, t3⟩ := q
  simp only [readQuad, except_bind_eq_ok, memFetch_eq_ok, Except.ok.injEq, Quad.mk.injEq]
  constructor
  · rintro ⟨_, h0, _, h1, _, h2, _, h3, rfl, rfl, rfl, rfl⟩; exact ⟨h0, h1, h2, h3⟩
  · rintro ⟨h0, h1, h2, h3⟩; exact ⟨_, h0, _, h1, _, h2, _, h3, rfl, rfl, rfl, rfl⟩

theorem readQuad_eq_error {m : Memory} {a : Nat} {f : Fault} (h : readQuad m a = .error f) :
    ∃ j < 4, f = .dbufUnwritten (a + j) ∧ memGet m (a + j) = none := by
  simp only [readQuad, except_bind_eq_error, memFetch_eq_error, reduceCtorEq, and_false, exists_false, or_false] at h
  rcases h with ⟨h, rfl⟩ | ⟨_, _, ⟨h, rfl⟩ | ⟨_, _, ⟨h, rfl⟩ | ⟨_, _, h, rfl⟩⟩⟩
  · exact ⟨0, by decide, rfl, h⟩
  · exact ⟨1, by decide, rfl, h⟩
  · exact ⟨2, by decide, rfl, h⟩
  · exact ⟨3, by decide, rfl, h⟩

/-- MemRead of a block is answered exactly when all its bytes are written, and then with those bytes. -/
theorem readBlock_eq_ok {m : Memory} {a : Nat} {s : Block} :
    readBlock m a = .ok s ↔ ∀ j < 16, memGet m (a + j) = some (blockByte s j) := by
  obtain ⟨c0, c1, c2, c3⟩ := s
  simp only [readBlock, except_bind_eq_ok, readQuad_eq_ok, Except.ok.injEq, Block.mk.injEq]
  constructor
  · rintro ⟨_, ⟨h0, h1, h2, h3⟩, _, ⟨h4, h5, h6, h7⟩, _, ⟨h8, h9, h10, h11⟩, _, ⟨h12, h13, h14, h15⟩, rfl, rfl, rfl, rfl⟩
    intro j hj
    interval_cases j <;> assumption
  · intro h
    refine ⟨c0, ⟨h 0 ?_, h 1 ?_, h 2 ?_, h 3 ?_⟩, c1, ⟨h 4 ?_, h 5 ?_, h 6 ?_, h 7 ?_⟩, c2,
      ⟨h 8 ?_, h 9 ?_, h 10 ?_, h 11 ?_⟩, c3, ⟨h 12 ?_, h 13 ?_, h 14 ?_, h 15 ?_⟩, rfl, rfl, rfl, rfl⟩ <;> decide

theorem readBlock_eq_error {m : Memory} {a : Nat} {f : Fault} (h : readBlock m a = .error f) :
    ∃ j < 16, f = .dbufUnwritten (a + j) ∧ memGet m (a + j) = none := by
  simp only [readBlock, except_bind_eq_error, reduceCtorEq, and_false, exists_false, or_false] at h
  rcases h with h | ⟨_, _, h | ⟨_, _, h | ⟨_, _, h⟩⟩⟩ <;> obtain ⟨j, hj, rfl, hn⟩ := readQuad_eq_error h
  · exact ⟨j, by omega, rfl, hn⟩
  · exact ⟨4 + j, by omega, by rw [Nat.add_assoc], by rwa [← Nat.add_assoc]⟩
  · exact ⟨8 + j, by omega, by rw [Nat.add_assoc], by rwa [← Nat.add_assoc]⟩
  · exact ⟨12 + j, by omega, by rw [Nat.add_assoc], by rwa [← Nat.add_assoc]⟩

theorem memGet_none_of_lt {m : Memory} {i : Nat} (h : ∀ c ∈ m, i < c.1) : memGet m i = none := by
  induction m with
  | nil => rfl
  | cons c m ih =>
    have := h c (by simp)
    rw [memGet, if_neg (by omega)]
    exact ih fun d hd => h d (by simp [hd])

/-- Equal memories are equal data: two memories in canonical form that read the same are the same list. -/
theorem memory_ext {m m' : Memory} (hm : Memory.wf m) (hm' : Memory.wf m') (h : ∀ i, memGet m i = memGet m' i) :
    m = m' := by
  induction m generalizing m' with
  | nil =>
    cases m' with
    | nil => rfl
    | cons c m' => have := h c.1; simp [memGet] at this
  | cons c m ih =>
    cases m' with
    | nil => have := h c.1; simp [memGet] at this
    | cons c' m' =>
      obtain ⟨a, b⟩ := c
      obtain ⟨a', b'⟩ := c'
      simp only [Memory.wf, List.map_cons, List.pairwise_cons] at hm hm'
      have rising : ∀ d ∈ m, a < d.1 := fun d hd => hm.1 d.1 (List.mem_map_of_mem hd)
      have rising' : ∀ d ∈ m', a' < d.1 := fun d hd => hm'.1 d.1 (List.mem_map_of_mem hd)
      have ha : a = a' := by
        by_contra hne
        rcases Nat.lt_or_gt_of_ne hne with hlt | hgt
        · have := h a
          rw [memGet, if_pos rfl, memGet, if_neg (by omega),
            memGet_none_of_lt fun d hd => hlt.trans (rising' d hd)] at this
          exact absurd this (by simp)
        · have := h a'
          rw [memGet, if_neg (by omega), memGet_none_of_lt fun d hd => hgt.trans (rising d hd), memGet, if_pos rfl] at this
          exact absurd this (by simp)
      subst ha
      have hb : b = b' := by have := h a; simpa [memGet] using this
      subst hb
      rw [ih hm.2 hm'.2 fun i => ?_]
      by_cases hi : i = a
      · subst hi
        rw [memGet_none_of_lt rising, memGet_none_of_lt rising']
      · have := h i
        rwa [memGet, if_neg (Ne.symm hi), memGet, if_neg (Ne.symm hi)] at this

/-- DBUF is in canonical form right after reset. -/
theorem wf_reset : Memory.wf State.reset.dbuf := List.Pairwise.nil

theorem wf_writeQuad {m : Memory} (h : Memory.wf m) (a : Nat) (q : Quad) : Memory.wf (writeQuad m a q) :=
  wf_writeBytes h a _

theorem wf_cbcPad {m : Memory} (h : Memory.wf m) (len : Nat) : Memory.wf (cbcPad len m) := wf_writeBytes h _ _

theorem wf_macPad {m : Memory} (h : Memory.wf m) (len : Nat) : Memory.wf (macPad len m) := wf_writeBytes h _ _

end Sys2Proof.Machine
end

