-- ==== Sys2Proof/Laws/Buffer.lean ====
section
/-! SUPPORT. Laws of reading and writing whole blocks and pads of DBUF: `Written`, `blockAt`, the chaining value, and what a
write keeps. -/

namespace Sys2Proof.Machine

theorem blockAt_of_memGet {m : Memory} {a : Nat} {s : Block} (h : ∀ j < 16, memGet m (a + j) = some (blockByte s j)) :
    blockAt m a = s := by
  apply block_ext_byte
  intro i hi
  rw [blockAt, blockByte_blockOfFn _ hi, h i hi]; rfl

theorem memGet_of_written {m : Memory} {a : Nat} (h : Written m a 16) :
    ∀ j < 16, memGet m (a + j) = some (blockByte (blockAt m a) j) := by
  intro j hj
  obtain ⟨b, hb⟩ := Option.isSome_iff_exists.mp (h j hj)
  rw [blockAt, blockByte_blockOfFn _ hj, hb]; rfl

/-- MemRead of a written block gives the bytes DBUF holds. -/
theorem readBlock_of_written {m : Memory} {a : Nat} (h : Written m a 16) : readBlock m a = .ok (blockAt m a) :=
  readBlock_eq_ok.mpr (memGet_of_written h)

theorem readBlock_ok {m : Memory} {a : Nat} {s : Block} (h : readBlock m a = .ok s) :
    Written m a 16 ∧ blockAt m a = s := by
  have h' := readBlock_eq_ok.mp h
  exact ⟨fun j hj => by rw [h' j hj]; rfl, blockAt_of_memGet h'⟩

theorem written_mono {m m' : Memory} {a n : Nat} (h : Written m a n)
    (hm : ∀ j, (memGet m j).isSome = true → (memGet m' j).isSome = true) : Written m' a n :=
  fun j hj => hm _ (h j hj)

theorem written_sub {m : Memory} {a n a' n' : Nat} (h : Written m a n) (h1 : a ≤ a') (h2 : a' + n' ≤ a + n) :
    Written m a' n' := by
  intro j hj
  have := h (a' + j - a) (by omega)
  rwa [show a + (a' + j - a) = a' + j by omega] at this

theorem isSome_memGet_writeBlock {m : Memory} {a : Nat} {s : Block} {j : Nat} (h : (memGet m j).isSome = true) :
    (memGet (writeBlock m a s) j).isSome = true := by
  rw [memGet_writeBlock]; split_ifs
  · rfl
  · exact h

theorem written_writeBlock_self (m : Memory) (a : Nat) (s : Block) : Written (writeBlock m a s) a 16 := by
  intro j hj
  rw [memGet_writeBlock, if_pos (by omega)]; rfl

theorem blockAt_writeBlock_self (m : Memory) (a : Nat) (s : Block) : blockAt (writeBlock m a s) a = s := by
  apply blockAt_of_memGet
  intro j hj
  rw [memGet_writeBlock, if_pos (by omega), Nat.add_sub_cancel_left]

theorem sameOutside_writeBlock (m : Memory) (a : Nat) (s : Block) : SameOutside m (writeBlock m a s) a 16 := by
  intro j hj
  rw [memGet_writeBlock, if_neg hj]

/-- Blocks that read the same byte for byte are the same block. -/
theorem blockAt_congr {m m' : Memory} {a : Nat} (h : ∀ j < 16, memGet m (a + j) = memGet m' (a + j)) :
    blockAt m a = blockAt m' a := by
  apply block_ext_byte
  intro i hi
  rw [blockAt, blockAt, blockByte_blockOfFn _ hi, blockByte_blockOfFn _ hi, h i hi]

theorem chainBefore_eq_ok {iv : Option Block} {b : Nat} {m : Memory} {c : Option Block}
    (h : chainBefore iv b m = .ok c) :
    (b ≠ 0 → Written m (16 * (b - 1)) 16) ∧ c = if b = 0 then iv else some (blockAt m (16 * (b - 1))) := by
  unfold chainBefore at h
  split_ifs at h with hb
  · exact ⟨fun h' => absurd hb h', by rw [if_pos hb]; exact (Except.ok.inj h).symm⟩
  · obtain ⟨s, hs, rfl⟩ := except_map_eq_ok.mp h
    obtain ⟨hw, rfl⟩ := readBlock_ok hs
    exact ⟨fun _ => hw, by rw [if_neg hb]⟩

theorem chainBefore_of_written {iv : Option Block} {b : Nat} {m : Memory} (h : b ≠ 0 → Written m (16 * (b - 1)) 16) :
    chainBefore iv b m = .ok (if b = 0 then iv else some (blockAt m (16 * (b - 1)))) := by
  unfold chainBefore
  split_ifs with hb
  · rfl
  · rw [readBlock_of_written (h hb)]; rfl

theorem chainBefore_eq_error {iv : Option Block} {b : Nat} {m : Memory} {f : Fault}
    (h : chainBefore iv b m = .error f) :
    b ≠ 0 ∧ ∃ j < 16, f = .dbufUnwritten (16 * (b - 1) + j) ∧ memGet m (16 * (b - 1) + j) = none := by
  unfold chainBefore at h
  split_ifs at h with hb
  exact ⟨hb, readBlock_eq_error (except_map_eq_error.mp h)⟩

/-- What a loop that answers did to DBUF: only the bytes of its blocks changed, none became unwritten, and the
canonical form and the capacity are kept. -/
structure KeepsBuffer (m m' : Memory) (a n : Nat) : Prop where
  outside : SameOutside m m' a n
  written : ∀ j, (memGet m j).isSome = true → (memGet m' j).isSome = true
  wf : Memory.wf m → Memory.wf m'
  within : ∀ size, a + n ≤ size → Memory.within m size → Memory.within m' size

theorem keepsBuffer_refl (m : Memory) (a n : Nat) : KeepsBuffer m m a n :=
  ⟨fun _ _ => rfl, fun _ h => h, id, fun _ _ h => h⟩

theorem KeepsBuffer.trans {m m' m'' : Memory} {a n : Nat} (h : KeepsBuffer m m' a n) (h' : KeepsBuffer m' m'' a n) :
    KeepsBuffer m m'' a n :=
  ⟨fun j hj => (h'.outside j hj).trans (h.outside j hj), fun j hj => h'.written j (h.written j hj),
    fun hw => h'.wf (h.wf hw), fun size hs hw => h'.within size hs (h.within size hs hw)⟩

theorem KeepsBuffer.widen {m m' : Memory} {a n a' n' : Nat} (h : KeepsBuffer m m' a n) (h1 : a' ≤ a)
    (h2 : a + n ≤ a' + n') : KeepsBuffer m m' a' n' :=
  ⟨fun j hj => h.outside j (by omega), h.written, h.wf, fun size hs => h.within size (by omega)⟩

theorem keepsBuffer_writeBytes (m : Memory) (a : Nat) (l : List Byte) : KeepsBuffer m (writeBytes m a l) a l.length where
  outside j hj := by rw [memGet_writeBytes, if_neg hj]
  written j hj := by
    rw [memGet_writeBytes]; split_ifs with h
    · rw [List.getElem?_eq_getElem (by omega)]; rfl
    · exact hj
  wf h := wf_writeBytes h a l
  within size hs h := within_writeBytes h hs

theorem keepsBuffer_writeBlock (m : Memory) (a : Nat) (s : Block) : KeepsBuffer m (writeBlock m a s) a 16 := by
  have := keepsBuffer_writeBytes m a (blockBytes s)
  rwa [blockBytes_length] at this

/-- Padding writes exactly the pad bytes (43_cbc.md R172). -/
theorem memGet_cbcPad (len : Nat) (m : Memory) (j : Nat) :
    memGet (cbcPad len m) j =
      if len ≤ j ∧ j < len + padCount len then some (BitVec.ofNat 8 (padCount len)) else memGet m j := by
  rw [cbcPad, memGet_writeBytes, List.length_replicate]
  by_cases h : len ≤ j ∧ j < len + padCount len
  · rw [if_pos h, if_pos h, List.getElem?_replicate, if_pos (by omega)]
  · rw [if_neg h, if_neg h]

theorem keepsBuffer_cbcPad (len : Nat) (m : Memory) : KeepsBuffer m (cbcPad len m) len (padCount len) := by
  have := keepsBuffer_writeBytes m len (List.replicate (padCount len) (BitVec.ofNat 8 (padCount len)))
  rwa [List.length_replicate] at this

theorem macPad_length (len : Nat) :
    (0x80 :: List.replicate (macLength len - len - 1) (0x00 : Byte)).length = macLength len - len := by
  rw [List.length_cons, List.length_replicate]
  unfold macLength
  omega

/-- Padding writes exactly the pad bytes (44_mac.md R192). -/
theorem memGet_macPad (len : Nat) (m : Memory) (j : Nat) :
    memGet (macPad len m) j =
      if len ≤ j ∧ j < macLength len then some (if j = len then 0x80 else 0x00) else memGet m j := by
  have hl : len < macLength len := by unfold macLength; omega
  rw [macPad, memGet_writeBytes, macPad_length]
  by_cases h : len ≤ j ∧ j < macLength len
  · rw [if_pos (by omega), if_pos h]
    by_cases hj : j = len
    · rw [if_pos hj, hj, Nat.sub_self]; rfl
    · rw [if_neg hj, show j - len = (j - len - 1) + 1 by omega, List.getElem?_cons_succ, List.getElem?_replicate,
        if_pos (by omega)]
  · rw [if_neg (by omega), if_neg h]

theorem keepsBuffer_macPad (len : Nat) (m : Memory) : KeepsBuffer m (macPad len m) len (macLength len - len) := by
  have := keepsBuffer_writeBytes m len (0x80 :: List.replicate (macLength len - len - 1) (0x00 : Byte))
  rwa [macPad_length] at this

end Sys2Proof.Machine
end

