-- ==== Sys2Proof/Laws/Loops.lean ====
section
/-! SUPPORT. What the loops of CBCENC, CBCDEC and MAC do, said once: when they complete and with which blocks, what they
keep, and what a stop names. -/

namespace Sys2Proof.Machine

/-- The CBCENC loop over written blocks completes; it writes exactly those blocks, each the chained encryption of what
stood there (43_cbc.md R173). -/
theorem cbcEncryptFrom_of_written (enc : Block → Block) (iv : Option Block) (n b : Nat) (m : Memory)
    (hw : Written m (16 * b) (16 * n)) (hprev : b ≠ 0 → Written m (16 * (b - 1)) 16) :
    ∃ m', cbcEncryptFrom enc iv n b m = .ok m' ∧ SameOutside m m' (16 * b) (16 * n) ∧
      Written m' (16 * b) (16 * n) ∧
      ∀ i, b ≤ i → i < b + n → blockAt m' (16 * i) =
        enc (xorChain (blockAt m (16 * i)) (if i = 0 then iv else some (blockAt m' (16 * (i - 1))))) := by
  induction n generalizing b m with
  | zero => exact ⟨m, rfl, fun _ _ => rfl, fun j hj => by omega, fun i _ _ => by omega⟩
  | succ n ih =>
    have hwb : Written m (16 * b) 16 := written_sub hw (by omega) (by omega)
    set e := enc (xorChain (blockAt m (16 * b)) (if b = 0 then iv else some (blockAt m (16 * (b - 1))))) with he
    obtain ⟨m', hm', hout, hwr, hblk⟩ := ih (b + 1) (writeBlock m (16 * b) e)
      (written_mono (written_sub hw (by omega) (by omega)) fun j => isSome_memGet_writeBlock)
      (fun _ => by
        rw [Nat.add_sub_cancel]; exact written_writeBlock_self m (16 * b) e)
    have hold : ∀ j, j < 16 * (b + 1) → memGet m' j = memGet (writeBlock m (16 * b) e) j := fun j hj => hout j (by omega)
    have hb' : blockAt m' (16 * b) = e := by
      rw [blockAt_congr (m' := writeBlock m (16 * b) e) fun j hj => hold _ (by omega)]
      exact blockAt_writeBlock_self m (16 * b) e
    refine ⟨m', ?_, ?_, ?_, ?_⟩
    · rw [cbcEncryptFrom, readBlock_of_written hwb, chainBefore_of_written hprev]
      exact hm'
    · intro j hj
      rw [hout j (by omega), memGet_writeBlock, if_neg (by omega)]
    · intro j hj
      by_cases h : j < 16
      · rw [hold _ (by omega), memGet_writeBlock, if_pos (by omega)]; rfl
      · have := hwr (j - 16) (by omega)
        rwa [show 16 * (b + 1) + (j - 16) = 16 * b + j by omega] at this
    · intro i hi1 hi2
      by_cases h : i = b
      · subst h
        rw [hb', he]
        split_ifs with h0
        · rfl
        · rw [blockAt_congr (m := m') (m' := m) fun j hj => by
            rw [hold _ (by omega), memGet_writeBlock, if_neg (by omega)]]
      · rw [hblk i (by omega) (by omega), blockAt_congr (m' := m) fun j hj => by
          rw [memGet_writeBlock, if_neg (by omega)]]

/-- The CBCDEC loop over written blocks completes; each block is decrypted and chained with the ciphertext that stood
before it (43_cbc.md R177). -/
theorem cbcDecryptFrom_of_written (dec : Block → Block) (iv : Option Block) (n : Nat) (m : Memory)
    (hw : Written m 0 (16 * n)) :
    ∃ m', cbcDecryptFrom dec iv n m = .ok m' ∧ SameOutside m m' 0 (16 * n) ∧ Written m' 0 (16 * n) ∧
      ∀ i < n, blockAt m' (16 * i) =
        xorChain (dec (blockAt m (16 * i))) (if i = 0 then iv else some (blockAt m (16 * (i - 1)))) := by
  induction n generalizing m with
  | zero => exact ⟨m, rfl, fun _ _ => rfl, fun j hj => by omega, fun i hi => by omega⟩
  | succ n ih =>
    have hwb : Written m (16 * n) 16 := written_sub hw (by omega) (by omega)
    set d := xorChain (dec (blockAt m (16 * n))) (if n = 0 then iv else some (blockAt m (16 * (n - 1)))) with hd
    obtain ⟨m', hm', hout, hwr, hblk⟩ := ih (writeBlock m (16 * n) d)
      (written_mono (written_sub hw (by omega) (by omega)) fun j => isSome_memGet_writeBlock)
    refine ⟨m', ?_, ?_, ?_, ?_⟩
    · rw [cbcDecryptFrom, readBlock_of_written hwb,
        chainBefore_of_written fun hn => written_sub hw (by omega) (by omega)]
      exact hm'
    · intro j hj
      rw [hout j (by omega), memGet_writeBlock, if_neg (by omega)]
    · intro j hj
      by_cases h : j < 16 * n
      · exact hwr j h
      · rw [hout _ (by omega), memGet_writeBlock, if_pos (by omega)]; rfl
    · intro i hi
      by_cases h : i = n
      · subst h
        rw [blockAt_congr (m := m') (m' := writeBlock m (16 * i) d) fun j hj => hout _ (by omega),
          blockAt_writeBlock_self]
      · rw [hblk i (by omega), blockAt_congr (m := writeBlock m (16 * n) d) (m' := m) fun j hj => by
          rw [memGet_writeBlock, if_neg (by omega)]]
        split_ifs with h0
        · rfl
        · rw [blockAt_congr (m := writeBlock m (16 * n) d) (m' := m) fun j hj => by
            rw [memGet_writeBlock, if_neg (by omega)]]

theorem cbcEncryptFrom_keeps {enc : Block → Block} {iv : Option Block} {n b : Nat} {m m' : Memory}
    (h : cbcEncryptFrom enc iv n b m = .ok m') : KeepsBuffer m m' (16 * b) (16 * n) := by
  induction n generalizing b m with
  | zero => cases Except.ok.inj h; exact keepsBuffer_refl _ _ _
  | succ n ih =>
    obtain ⟨x, -, h⟩ := except_bind_eq_ok.mp h
    obtain ⟨c, -, h⟩ := except_bind_eq_ok.mp h
    exact ((keepsBuffer_writeBlock m _ _).widen (by omega) (by omega)).trans ((ih h).widen (by omega) (by omega))

theorem cbcDecryptFrom_keeps {dec : Block → Block} {iv : Option Block} {n : Nat} {m m' : Memory}
    (h : cbcDecryptFrom dec iv n m = .ok m') : KeepsBuffer m m' 0 (16 * n) := by
  induction n generalizing m with
  | zero => cases Except.ok.inj h; exact keepsBuffer_refl _ _ _
  | succ n ih =>
    obtain ⟨x, -, h⟩ := except_bind_eq_ok.mp h
    obtain ⟨c, -, h⟩ := except_bind_eq_ok.mp h
    exact ((keepsBuffer_writeBlock m _ _).widen (by omega) (by omega)).trans ((ih h).widen (by omega) (by omega))

/-- A stop of the CBCENC loop names an unwritten byte of its blocks or of the block before them. -/
theorem cbcEncryptFrom_eq_error {enc : Block → Block} {iv : Option Block} {n b : Nat} {m : Memory} {f : Fault}
    (h : cbcEncryptFrom enc iv n b m = .error f) :
    ∃ o, o < 16 * (b + n) ∧ f = .dbufUnwritten o ∧ memGet m o = none := by
  induction n generalizing b m with
  | zero => simp [cbcEncryptFrom] at h
  | succ n ih =>
    rcases except_bind_eq_error.mp h with h | ⟨x, -, h⟩
    · obtain ⟨j, hj, rfl, hn⟩ := readBlock_eq_error h
      exact ⟨_, by omega, rfl, hn⟩
    · rcases except_bind_eq_error.mp h with h | ⟨c, -, h⟩
      · obtain ⟨hb, j, hj, rfl, hn⟩ := chainBefore_eq_error h
        exact ⟨_, by omega, rfl, hn⟩
      · obtain ⟨o, ho, rfl, hn⟩ := ih h
        refine ⟨o, by omega, rfl, ?_⟩
        rw [memGet_writeBlock] at hn
        split_ifs at hn
        exact hn

theorem cbcDecryptFrom_eq_error {dec : Block → Block} {iv : Option Block} {n : Nat} {m : Memory} {f : Fault}
    (h : cbcDecryptFrom dec iv n m = .error f) :
    ∃ o, o < 16 * n ∧ f = .dbufUnwritten o ∧ memGet m o = none := by
  induction n generalizing m with
  | zero => simp [cbcDecryptFrom] at h
  | succ n ih =>
    rcases except_bind_eq_error.mp h with h | ⟨x, -, h⟩
    · obtain ⟨j, hj, rfl, hn⟩ := readBlock_eq_error h
      exact ⟨_, by omega, rfl, hn⟩
    · rcases except_bind_eq_error.mp h with h | ⟨c, -, h⟩
      · obtain ⟨hb, j, hj, rfl, hn⟩ := chainBefore_eq_error h
        exact ⟨_, by omega, rfl, hn⟩
      · obtain ⟨o, ho, rfl, hn⟩ := ih h
        refine ⟨o, by omega, rfl, ?_⟩
        rw [memGet_writeBlock] at hn
        split_ifs at hn
        exact hn

/-- The MAC loop over written blocks completes with the chained accumulator (44_mac.md R193). -/
theorem macFrom_of_written (enc : Block → Block) (m : Memory) (n b : Nat) (acc : Block)
    (hw : Written m (16 * b) (16 * n)) :
    macFrom enc m n b acc =
      .ok ((List.range' b n).foldl (fun acc i => enc (blockXor acc (blockAt m (16 * i)))) acc) := by
  induction n generalizing b acc with
  | zero => rfl
  | succ n ih =>
    rw [macFrom, readBlock_of_written (written_sub hw (by omega) (by omega))]
    show macFrom enc m n (b + 1) _ = _
    rw [ih (b + 1) _ (written_sub hw (by omega) (by omega)), List.range'_succ, List.foldl_cons]

theorem macFrom_eq_error {enc : Block → Block} {m : Memory} {n b : Nat} {acc : Block} {f : Fault}
    (h : macFrom enc m n b acc = .error f) :
    ∃ o, o < 16 * (b + n) ∧ f = .dbufUnwritten o ∧ memGet m o = none := by
  induction n generalizing b acc with
  | zero => simp [macFrom] at h
  | succ n ih =>
    rcases except_bind_eq_error.mp h with h | ⟨x, -, h⟩
    · obtain ⟨j, hj, rfl, hn⟩ := readBlock_eq_error h
      exact ⟨_, by omega, rfl, hn⟩
    · obtain ⟨o, ho, rfl, hn⟩ := ih h
      exact ⟨o, by omega, rfl, hn⟩

end Sys2Proof.Machine
end

