-- ==== Sys2Proof/Laws/State.lean ====
section
/-! SUPPORT. One lemma for each field of `State` and each named update: what the field is afterwards. -/

namespace Sys2Proof.Machine

@[simp] theorem completeWith_cfg (e : ErrCode) (s : State) : (completeWith e s).cfg = s.cfg := rfl
@[simp] theorem completeWith_ie (e : ErrCode) (s : State) : (completeWith e s).ie = s.ie := rfl
@[simp] theorem completeWith_done (e : ErrCode) (s : State) : (completeWith e s).done = true := rfl
@[simp] theorem completeWith_ctxv (e : ErrCode) (s : State) : (completeWith e s).ctxv = s.ctxv := rfl
@[simp] theorem completeWith_ovr (e : ErrCode) (s : State) : (completeWith e s).ovr = s.ovr := rfl
@[simp] theorem completeWith_twk (e : ErrCode) (s : State) : (completeWith e s).twk = s.twk := rfl
@[simp] theorem completeWith_err (e : ErrCode) (s : State) : (completeWith e s).err = e := rfl
@[simp] theorem completeWith_nr (e : ErrCode) (s : State) : (completeWith e s).nr = s.nr := rfl
@[simp] theorem completeWith_cmd (e : ErrCode) (s : State) : (completeWith e s).cmd = s.cmd := rfl
@[simp] theorem completeWith_len (e : ErrCode) (s : State) : (completeWith e s).len = s.len := rfl
@[simp] theorem completeWith_key (e : ErrCode) (s : State) : (completeWith e s).key = s.key := rfl
@[simp] theorem completeWith_iv (e : ErrCode) (s : State) : (completeWith e s).iv = s.iv := rfl
@[simp] theorem completeWith_tag (e : ErrCode) (s : State) : (completeWith e s).tag = s.tag := rfl
@[simp] theorem completeWith_rk (e : ErrCode) (s : State) : (completeWith e s).rk = s.rk := rfl
@[simp] theorem completeWith_dbuf (e : ErrCode) (s : State) : (completeWith e s).dbuf = s.dbuf := rfl
@[simp] theorem completeWith_inflight (e : ErrCode) (s : State) : (completeWith e s).inflight = none := rfl
@[simp] theorem completeWith_rdata (e : ErrCode) (s : State) : (completeWith e s).rdata = s.rdata := rfl
@[simp] theorem completeWith_host (e : ErrCode) (s : State) : (completeWith e s).host = s.host := rfl
@[simp] theorem completeWith_draws (e : ErrCode) (s : State) : (completeWith e s).draws = s.draws := rfl

@[simp] theorem loadCommand_cfg (w : Word) (s : State) : (loadCommand w s).cfg = s.cfg := rfl
@[simp] theorem loadCommand_ie (w : Word) (s : State) : (loadCommand w s).ie = s.ie := rfl
@[simp] theorem loadCommand_ctxv (w : Word) (s : State) : (loadCommand w s).ctxv = s.ctxv := rfl
@[simp] theorem loadCommand_ovr (w : Word) (s : State) : (loadCommand w s).ovr = s.ovr := rfl
@[simp] theorem loadCommand_twk (w : Word) (s : State) : (loadCommand w s).twk = s.twk := rfl
@[simp] theorem loadCommand_nr (w : Word) (s : State) : (loadCommand w s).nr = s.nr := rfl
@[simp] theorem loadCommand_len (w : Word) (s : State) : (loadCommand w s).len = s.len := rfl
@[simp] theorem loadCommand_key (w : Word) (s : State) : (loadCommand w s).key = s.key := rfl
@[simp] theorem loadCommand_iv (w : Word) (s : State) : (loadCommand w s).iv = s.iv := rfl
@[simp] theorem loadCommand_tag (w : Word) (s : State) : (loadCommand w s).tag = s.tag := rfl
@[simp] theorem loadCommand_rk (w : Word) (s : State) : (loadCommand w s).rk = s.rk := rfl
@[simp] theorem loadCommand_dbuf (w : Word) (s : State) : (loadCommand w s).dbuf = s.dbuf := rfl
@[simp] theorem loadCommand_inflight (w : Word) (s : State) : (loadCommand w s).inflight = s.inflight := rfl
@[simp] theorem loadCommand_rdata (w : Word) (s : State) : (loadCommand w s).rdata = s.rdata := rfl
@[simp] theorem loadCommand_host (w : Word) (s : State) : (loadCommand w s).host = s.host := rfl
@[simp] theorem loadCommand_draws (w : Word) (s : State) : (loadCommand w s).draws = s.draws := rfl
@[simp] theorem loadCommand_cmd (w : Word) (s : State) : (loadCommand w s).cmd = w := rfl
@[simp] theorem loadCommand_done (w : Word) (s : State) : (loadCommand w s).done = false := rfl
@[simp] theorem loadCommand_err (w : Word) (s : State) : (loadCommand w s).err = .none := rfl

@[simp] theorem acceptCommand_cfg (w : Word) (s : State) : (acceptCommand w s).cfg = s.cfg := rfl
@[simp] theorem acceptCommand_ie (w : Word) (s : State) : (acceptCommand w s).ie = s.ie := rfl
@[simp] theorem acceptCommand_done (w : Word) (s : State) : (acceptCommand w s).done = false := rfl
@[simp] theorem acceptCommand_ctxv (w : Word) (s : State) : (acceptCommand w s).ctxv = s.ctxv := rfl
@[simp] theorem acceptCommand_ovr (w : Word) (s : State) : (acceptCommand w s).ovr = s.ovr := rfl
@[simp] theorem acceptCommand_twk (w : Word) (s : State) : (acceptCommand w s).twk = s.twk := rfl
@[simp] theorem acceptCommand_err (w : Word) (s : State) : (acceptCommand w s).err = .none := rfl
@[simp] theorem acceptCommand_nr (w : Word) (s : State) : (acceptCommand w s).nr = s.nr := rfl
@[simp] theorem acceptCommand_cmd (w : Word) (s : State) : (acceptCommand w s).cmd = w := rfl
@[simp] theorem acceptCommand_len (w : Word) (s : State) : (acceptCommand w s).len = s.len := rfl
@[simp] theorem acceptCommand_key (w : Word) (s : State) : (acceptCommand w s).key = s.key := rfl
@[simp] theorem acceptCommand_iv (w : Word) (s : State) : (acceptCommand w s).iv = s.iv := rfl
@[simp] theorem acceptCommand_tag (w : Word) (s : State) : (acceptCommand w s).tag = s.tag := rfl
@[simp] theorem acceptCommand_rk (w : Word) (s : State) : (acceptCommand w s).rk = s.rk := rfl
@[simp] theorem acceptCommand_dbuf (w : Word) (s : State) : (acceptCommand w s).dbuf = s.dbuf := rfl
@[simp] theorem acceptCommand_inflight (w : Word) (s : State) : (acceptCommand w s).inflight = some (drawLatency w s) := rfl
@[simp] theorem acceptCommand_rdata (w : Word) (s : State) : (acceptCommand w s).rdata = s.rdata := rfl
@[simp] theorem acceptCommand_host (w : Word) (s : State) : (acceptCommand w s).host = s.host := rfl
@[simp] theorem acceptCommand_draws (w : Word) (s : State) : (acceptCommand w s).draws = s.draws + 1 := rfl

/-- A drawn latency is at least one cycle (00_scope.md R13). -/
theorem one_le_drawLatency (w : Word) (s : State) : 1 ≤ drawLatency w s := Nat.le_add_right 1 _

@[simp] theorem overrun_cfg (s : State) : (overrun s).cfg = s.cfg := rfl
@[simp] theorem overrun_ie (s : State) : (overrun s).ie = s.ie := rfl
@[simp] theorem overrun_done (s : State) : (overrun s).done = s.done := rfl
@[simp] theorem overrun_ctxv (s : State) : (overrun s).ctxv = s.ctxv := rfl
@[simp] theorem overrun_ovr (s : State) : (overrun s).ovr = true := rfl
@[simp] theorem overrun_twk (s : State) : (overrun s).twk = s.twk := rfl
@[simp] theorem overrun_err (s : State) : (overrun s).err = s.err := rfl
@[simp] theorem overrun_nr (s : State) : (overrun s).nr = s.nr := rfl
@[simp] theorem overrun_cmd (s : State) : (overrun s).cmd = s.cmd := rfl
@[simp] theorem overrun_len (s : State) : (overrun s).len = s.len := rfl
@[simp] theorem overrun_key (s : State) : (overrun s).key = s.key := rfl
@[simp] theorem overrun_iv (s : State) : (overrun s).iv = s.iv := rfl
@[simp] theorem overrun_tag (s : State) : (overrun s).tag = s.tag := rfl
@[simp] theorem overrun_rk (s : State) : (overrun s).rk = s.rk := rfl
@[simp] theorem overrun_dbuf (s : State) : (overrun s).dbuf = s.dbuf := rfl
@[simp] theorem overrun_inflight (s : State) : (overrun s).inflight = s.inflight := rfl
@[simp] theorem overrun_rdata (s : State) : (overrun s).rdata = s.rdata := rfl
@[simp] theorem overrun_host (s : State) : (overrun s).host = s.host := rfl
@[simp] theorem overrun_draws (s : State) : (overrun s).draws = s.draws := rfl

@[simp] theorem writeStatus_cfg (v : Word) (s : State) : (writeStatus v s).cfg = s.cfg := rfl
@[simp] theorem writeStatus_ie (v : Word) (s : State) : (writeStatus v s).ie = s.ie := rfl
@[simp] theorem writeStatus_done (v : Word) (s : State) : (writeStatus v s).done = (s.done && !v.getLsbD 1) := rfl
@[simp] theorem writeStatus_ctxv (v : Word) (s : State) : (writeStatus v s).ctxv = s.ctxv := rfl
@[simp] theorem writeStatus_ovr (v : Word) (s : State) : (writeStatus v s).ovr = (s.ovr && !v.getLsbD 3) := rfl
@[simp] theorem writeStatus_twk (v : Word) (s : State) : (writeStatus v s).twk = s.twk := rfl
@[simp] theorem writeStatus_err (v : Word) (s : State) : (writeStatus v s).err = s.err := rfl
@[simp] theorem writeStatus_nr (v : Word) (s : State) : (writeStatus v s).nr = s.nr := rfl
@[simp] theorem writeStatus_cmd (v : Word) (s : State) : (writeStatus v s).cmd = s.cmd := rfl
@[simp] theorem writeStatus_len (v : Word) (s : State) : (writeStatus v s).len = s.len := rfl
@[simp] theorem writeStatus_key (v : Word) (s : State) : (writeStatus v s).key = s.key := rfl
@[simp] theorem writeStatus_iv (v : Word) (s : State) : (writeStatus v s).iv = s.iv := rfl
@[simp] theorem writeStatus_tag (v : Word) (s : State) : (writeStatus v s).tag = s.tag := rfl
@[simp] theorem writeStatus_rk (v : Word) (s : State) : (writeStatus v s).rk = s.rk := rfl
@[simp] theorem writeStatus_dbuf (v : Word) (s : State) : (writeStatus v s).dbuf = s.dbuf := rfl
@[simp] theorem writeStatus_inflight (v : Word) (s : State) : (writeStatus v s).inflight = s.inflight := rfl
@[simp] theorem writeStatus_rdata (v : Word) (s : State) : (writeStatus v s).rdata = s.rdata := rfl
@[simp] theorem writeStatus_host (v : Word) (s : State) : (writeStatus v s).host = s.host := rfl
@[simp] theorem writeStatus_draws (v : Word) (s : State) : (writeStatus v s).draws = s.draws := rfl

@[simp] theorem loadContext_cfg (x : RoundKeys × Nat) (tweak : Bool) (s : State) : (loadContext x tweak s).cfg = s.cfg := rfl
@[simp] theorem loadContext_ie (x : RoundKeys × Nat) (tweak : Bool) (s : State) : (loadContext x tweak s).ie = s.ie := rfl
@[simp] theorem loadContext_done (x : RoundKeys × Nat) (tweak : Bool) (s : State) : (loadContext x tweak s).done = s.done := rfl
@[simp] theorem loadContext_ctxv (x : RoundKeys × Nat) (tweak : Bool) (s : State) : (loadContext x tweak s).ctxv = true := rfl
@[simp] theorem loadContext_ovr (x : RoundKeys × Nat) (tweak : Bool) (s : State) : (loadContext x tweak s).ovr = s.ovr := rfl
@[simp] theorem loadContext_twk (x : RoundKeys × Nat) (tweak : Bool) (s : State) : (loadContext x tweak s).twk = tweak := rfl
@[simp] theorem loadContext_err (x : RoundKeys × Nat) (tweak : Bool) (s : State) : (loadContext x tweak s).err = s.err := rfl
@[simp] theorem loadContext_nr (x : RoundKeys × Nat) (tweak : Bool) (s : State) : (loadContext x tweak s).nr = BitVec.ofNat 4 x.2 := rfl
@[simp] theorem loadContext_cmd (x : RoundKeys × Nat) (tweak : Bool) (s : State) : (loadContext x tweak s).cmd = s.cmd := rfl
@[simp] theorem loadContext_len (x : RoundKeys × Nat) (tweak : Bool) (s : State) : (loadContext x tweak s).len = s.len := rfl
@[simp] theorem loadContext_key (x : RoundKeys × Nat) (tweak : Bool) (s : State) : (loadContext x tweak s).key = s.key := rfl
@[simp] theorem loadContext_iv (x : RoundKeys × Nat) (tweak : Bool) (s : State) : (loadContext x tweak s).iv = s.iv := rfl
@[simp] theorem loadContext_tag (x : RoundKeys × Nat) (tweak : Bool) (s : State) : (loadContext x tweak s).tag = s.tag := rfl
@[simp] theorem loadContext_rk (x : RoundKeys × Nat) (tweak : Bool) (s : State) : (loadContext x tweak s).rk = packRoundKeys x.1 := rfl
@[simp] theorem loadContext_dbuf (x : RoundKeys × Nat) (tweak : Bool) (s : State) : (loadContext x tweak s).dbuf = s.dbuf := rfl
@[simp] theorem loadContext_inflight (x : RoundKeys × Nat) (tweak : Bool) (s : State) : (loadContext x tweak s).inflight = s.inflight := rfl
@[simp] theorem loadContext_rdata (x : RoundKeys × Nat) (tweak : Bool) (s : State) : (loadContext x tweak s).rdata = s.rdata := rfl
@[simp] theorem loadContext_host (x : RoundKeys × Nat) (tweak : Bool) (s : State) : (loadContext x tweak s).host = s.host := rfl
@[simp] theorem loadContext_draws (x : RoundKeys × Nat) (tweak : Bool) (s : State) : (loadContext x tweak s).draws = s.draws := rfl

@[simp] theorem readFree_cfg (a : BitVec 14) (s : State) : (readFree a s).cfg = s.cfg := rfl
@[simp] theorem readFree_ie (a : BitVec 14) (s : State) : (readFree a s).ie = s.ie := rfl
@[simp] theorem readFree_done (a : BitVec 14) (s : State) : (readFree a s).done = s.done := rfl
@[simp] theorem readFree_ctxv (a : BitVec 14) (s : State) : (readFree a s).ctxv = s.ctxv := rfl
@[simp] theorem readFree_ovr (a : BitVec 14) (s : State) : (readFree a s).ovr = s.ovr := rfl
@[simp] theorem readFree_twk (a : BitVec 14) (s : State) : (readFree a s).twk = s.twk := rfl
@[simp] theorem readFree_err (a : BitVec 14) (s : State) : (readFree a s).err = s.err := rfl
@[simp] theorem readFree_nr (a : BitVec 14) (s : State) : (readFree a s).nr = s.nr := rfl
@[simp] theorem readFree_cmd (a : BitVec 14) (s : State) : (readFree a s).cmd = s.cmd := rfl
@[simp] theorem readFree_len (a : BitVec 14) (s : State) : (readFree a s).len = s.len := rfl
@[simp] theorem readFree_key (a : BitVec 14) (s : State) : (readFree a s).key = s.key := rfl
@[simp] theorem readFree_iv (a : BitVec 14) (s : State) : (readFree a s).iv = s.iv := rfl
@[simp] theorem readFree_tag (a : BitVec 14) (s : State) : (readFree a s).tag = s.tag := rfl
@[simp] theorem readFree_rk (a : BitVec 14) (s : State) : (readFree a s).rk = s.rk := rfl
@[simp] theorem readFree_dbuf (a : BitVec 14) (s : State) : (readFree a s).dbuf = s.dbuf := rfl
@[simp] theorem readFree_inflight (a : BitVec 14) (s : State) : (readFree a s).inflight = s.inflight := rfl
@[simp] theorem readFree_rdata (a : BitVec 14) (s : State) : (readFree a s).rdata = some (Config.freeRead s.draws s a) := rfl
@[simp] theorem readFree_host (a : BitVec 14) (s : State) : (readFree a s).host = s.host := rfl
@[simp] theorem readFree_draws (a : BitVec 14) (s : State) : (readFree a s).draws = s.draws + 1 := rfl

@[simp] theorem beginCycle_cfg (s : State) : (beginCycle s).cfg = s.cfg := rfl
@[simp] theorem beginCycle_ie (s : State) : (beginCycle s).ie = s.ie := rfl
@[simp] theorem beginCycle_done (s : State) : (beginCycle s).done = s.done := rfl
@[simp] theorem beginCycle_ctxv (s : State) : (beginCycle s).ctxv = s.ctxv := rfl
@[simp] theorem beginCycle_ovr (s : State) : (beginCycle s).ovr = s.ovr := rfl
@[simp] theorem beginCycle_twk (s : State) : (beginCycle s).twk = s.twk := rfl
@[simp] theorem beginCycle_err (s : State) : (beginCycle s).err = s.err := rfl
@[simp] theorem beginCycle_nr (s : State) : (beginCycle s).nr = s.nr := rfl
@[simp] theorem beginCycle_cmd (s : State) : (beginCycle s).cmd = s.cmd := rfl
@[simp] theorem beginCycle_len (s : State) : (beginCycle s).len = s.len := rfl
@[simp] theorem beginCycle_key (s : State) : (beginCycle s).key = s.key := rfl
@[simp] theorem beginCycle_iv (s : State) : (beginCycle s).iv = s.iv := rfl
@[simp] theorem beginCycle_tag (s : State) : (beginCycle s).tag = s.tag := rfl
@[simp] theorem beginCycle_rk (s : State) : (beginCycle s).rk = s.rk := rfl
@[simp] theorem beginCycle_dbuf (s : State) : (beginCycle s).dbuf = s.dbuf := rfl
@[simp] theorem beginCycle_inflight (s : State) : (beginCycle s).inflight = s.inflight := rfl
@[simp] theorem beginCycle_rdata (s : State) : (beginCycle s).rdata = none := rfl
@[simp] theorem beginCycle_host (s : State) : (beginCycle s).host = s.host.tail := rfl
@[simp] theorem beginCycle_draws (s : State) : (beginCycle s).draws = s.draws := rfl

@[simp] theorem busy_completeWith (e : ErrCode) (s : State) : busy (completeWith e s) = false := rfl
@[simp] theorem busy_acceptCommand (w : Word) (s : State) : busy (acceptCommand w s) = true := rfl
@[simp] theorem busy_overrun (s : State) : busy (overrun s) = busy s := rfl
@[simp] theorem busy_writeStatus (v : Word) (s : State) : busy (writeStatus v s) = busy s := rfl
@[simp] theorem busy_beginCycle (s : State) : busy (beginCycle s) = busy s := rfl

/-- BUSY is 0 exactly when no command is in flight (10_state.md R36). -/
theorem busy_eq_false_iff (s : State) : busy s = false ↔ s.inflight = none := by
  simp [busy]

end Sys2Proof.Machine
end

