-- ==== Sys2Proof/Laws/Commands.lean ====
section
/-! SUPPORT. What a command can do, said once: `exec_eq_next` (the cases of a completion), `exec_eq_fault` and
`exec_ne_refused` (the ways it stops). Later proofs cite these and do not unfold a meaning. -/

namespace Sys2Proof.Machine

theorem finishWith_eq_next {r : Except Fault State} {t : State} :
    finishWith r = .next t ↔ ∃ s, r = .ok s ∧ t = completeWith .none s := by
  cases r <;> simp [finishWith, finish, eq_comm]

theorem finishWith_eq_fault {r : Except Fault State} {f : Fault} : finishWith r = .fault f ↔ r = .error f := by
  cases r <;> simp [finishWith, finish]

theorem finishWith_ne_refused (r : Except Fault State) (x : Refusal) : finishWith r ≠ .refused x := by
  cases r <;> simp [finishWith, finish]

theorem raiseError_eq_next {e : ErrCode} {s t : State} : raiseError e s = .next t ↔ t = completeWith e s := by
  simp [raiseError, eq_comm]

theorem padCount_pos (len : Nat) : 1 ≤ padCount len := by unfold padCount; omega

theorem padCount_le (len : Nat) : padCount len ≤ 16 := by unfold padCount; omega

/-- The padded length of CBCENC is a whole number of blocks. -/
theorem padded_blocks (len : Nat) : 16 * ((len + padCount len) / 16) = len + padCount len := by
  unfold padCount; omega

theorem macLength_blocks (len : Nat) : 16 * (macLength len / 16) = macLength len := by
  unfold macLength; omega

theorem macLength_le (len : Nat) : macLength len ≤ len + 16 := by unfold macLength; omega

theorem lt_macLength (len : Nat) : len < macLength len := by unfold macLength; omega

theorem cbcEncrypt_eq_ok {iven : Bool} {s u : State} (h : cbcEncrypt iven s = .ok u) :
    u = { s with dbuf := u.dbuf, len := BitVec.ofNat 32 (s.len.toNat + padCount s.len.toNat) } ∧
      KeepsBuffer s.dbuf u.dbuf 0 (s.len.toNat + padCount s.len.toNat) := by
  obtain ⟨m, hm, rfl⟩ := except_map_eq_ok.mp h
  refine ⟨rfl, ?_⟩
  have h1 := cbcEncryptFrom_keeps hm
  rw [padded_blocks] at h1
  exact ((keepsBuffer_cbcPad s.len.toNat s.dbuf).widen (by omega) (by omega)).trans (h1.widen (by omega) (by omega))

theorem cbcEncrypt_eq_error {iven : Bool} {s : State} {f : Fault} (h : cbcEncrypt iven s = .error f) :
    ∃ o, o < s.len.toNat + 16 ∧ f = .dbufUnwritten o ∧ memGet s.dbuf o = none := by
  obtain ⟨o, ho, rfl, hn⟩ := cbcEncryptFrom_eq_error (except_map_eq_error.mp h)
  rw [Nat.zero_add, padded_blocks] at ho
  have := padCount_le s.len.toNat
  refine ⟨o, by omega, rfl, ?_⟩
  rw [memGet_cbcPad] at hn
  split_ifs at hn
  exact hn

theorem cbcDecrypt_eq_ok {iven : Bool} {s u : State} (h : cbcDecrypt iven s = .ok u) :
    u = { s with dbuf := u.dbuf } ∧ KeepsBuffer s.dbuf u.dbuf 0 (16 * (s.len.toNat / 16)) := by
  obtain ⟨m, hm, rfl⟩ := except_map_eq_ok.mp h
  exact ⟨rfl, cbcDecryptFrom_keeps hm⟩

theorem cbcDecrypt_eq_error {iven : Bool} {s : State} {f : Fault} (h : cbcDecrypt iven s = .error f) :
    ∃ o, o < s.len.toNat ∧ f = .dbufUnwritten o ∧ memGet s.dbuf o = none := by
  obtain ⟨o, ho, rfl, hn⟩ := cbcDecryptFrom_eq_error (except_map_eq_error.mp h)
  exact ⟨o, by omega, rfl, hn⟩

theorem macEffect_eq_ok {s u : State} (h : macEffect s = .ok u) :
    u = { s with dbuf := macPad s.len.toNat s.dbuf, tag := u.tag } := by
  obtain ⟨acc, -, rfl⟩ := except_map_eq_ok.mp h
  rfl

theorem macEffect_eq_error {s : State} {f : Fault} (h : macEffect s = .error f) :
    ∃ o, o < s.len.toNat + 16 ∧ f = .dbufUnwritten o ∧ memGet s.dbuf o = none := by
  obtain ⟨o, ho, rfl, hn⟩ := macFrom_eq_error (except_map_eq_error.mp h)
  rw [Nat.zero_add, macLength_blocks] at ho
  have := macLength_le s.len.toNat
  refine ⟨o, by omega, rfl, ?_⟩
  rw [memGet_macPad] at hn
  split_ifs at hn
  exact hn

/-- The effect of ENCB and DECB: one block transformed in place. -/
def transformed (f : Block → Block) (b : Nat) (s : State) : State :=
  { s with dbuf := writeBlock s.dbuf (blockOffset b) (f (blockAt s.dbuf (blockOffset b))) }

@[simp] theorem transformed_cfg (f : Block → Block) (b : Nat) (s : State) : (transformed f b s).cfg = s.cfg := by simp only [transformed]
@[simp] theorem transformed_ie (f : Block → Block) (b : Nat) (s : State) : (transformed f b s).ie = s.ie := by simp only [transformed]
@[simp] theorem transformed_done (f : Block → Block) (b : Nat) (s : State) : (transformed f b s).done = s.done := by simp only [transformed]
@[simp] theorem transformed_ctxv (f : Block → Block) (b : Nat) (s : State) : (transformed f b s).ctxv = s.ctxv := by simp only [transformed]
@[simp] theorem transformed_ovr (f : Block → Block) (b : Nat) (s : State) : (transformed f b s).ovr = s.ovr := by simp only [transformed]
@[simp] theorem transformed_twk (f : Block → Block) (b : Nat) (s : State) : (transformed f b s).twk = s.twk := by simp only [transformed]
@[simp] theorem transformed_err (f : Block → Block) (b : Nat) (s : State) : (transformed f b s).err = s.err := by simp only [transformed]
@[simp] theorem transformed_nr (f : Block → Block) (b : Nat) (s : State) : (transformed f b s).nr = s.nr := by simp only [transformed]
@[simp] theorem transformed_cmd (f : Block → Block) (b : Nat) (s : State) : (transformed f b s).cmd = s.cmd := by simp only [transformed]
@[simp] theorem transformed_len (f : Block → Block) (b : Nat) (s : State) : (transformed f b s).len = s.len := by simp only [transformed]
@[simp] theorem transformed_key (f : Block → Block) (b : Nat) (s : State) : (transformed f b s).key = s.key := by simp only [transformed]
@[simp] theorem transformed_iv (f : Block → Block) (b : Nat) (s : State) : (transformed f b s).iv = s.iv := by simp only [transformed]
@[simp] theorem transformed_tag (f : Block → Block) (b : Nat) (s : State) : (transformed f b s).tag = s.tag := by simp only [transformed]
@[simp] theorem transformed_rk (f : Block → Block) (b : Nat) (s : State) : (transformed f b s).rk = s.rk := by simp only [transformed]
@[simp] theorem transformed_inflight (f : Block → Block) (b : Nat) (s : State) : (transformed f b s).inflight = s.inflight := by simp only [transformed]
@[simp] theorem transformed_rdata (f : Block → Block) (b : Nat) (s : State) : (transformed f b s).rdata = s.rdata := by simp only [transformed]
@[simp] theorem transformed_host (f : Block → Block) (b : Nat) (s : State) : (transformed f b s).host = s.host := by simp only [transformed]
@[simp] theorem transformed_draws (f : Block → Block) (b : Nat) (s : State) : (transformed f b s).draws = s.draws := by simp only [transformed]
@[simp] theorem transformed_dbuf (f : Block → Block) (b : Nat) (s : State) :
    (transformed f b s).dbuf = writeBlock s.dbuf (blockOffset b) (f (blockAt s.dbuf (blockOffset b))) := by simp only [transformed]

/-- What the effect of a command that completes with ERR = NONE is: from `s` to `u`, before the completion itself. -/
def Effect (i : Instr) (s u : State) : Prop :=
  match i with
  | .nop => u = s
  | .keyexp tweak nk => supportedNk nk ∧ u = loadContext (keyExpand ((keyQuads s).take nk) nk tweak) tweak s
  | .encb b =>
    s.ctxv = true ∧ blockOffset b + 16 ≤ s.cfg.dbufBytes ∧ Written s.dbuf (blockOffset b) 16 ∧
      u = transformed (cipher (contextKeys s) s.nr.toNat) b s
  | .decb b =>
    s.ctxv = true ∧ blockOffset b + 16 ≤ s.cfg.dbufBytes ∧ Written s.dbuf (blockOffset b) 16 ∧
      u = transformed (invCipher (contextKeys s) s.nr.toNat) b s
  | .cbcenc iven => s.ctxv = true ∧ s.len.toNat + 16 ≤ s.cfg.dbufBytes ∧ cbcEncrypt iven s = .ok u
  | .cbcdec iven =>
    s.ctxv = true ∧ s.len.toNat ≠ 0 ∧ s.len.toNat % 16 = 0 ∧ s.len.toNat ≤ s.cfg.dbufBytes ∧ cbcDecrypt iven s = .ok u
  | .mac => s.len.toNat + 16 ≤ s.cfg.dbufBytes ∧ macEffect s = .ok u

/-- ENCB and DECB on a written block, with a context, inside DBUF. -/
theorem transformBlock_of_written {f : Block → Block} {b : Nat} {s : State} (hc : s.ctxv = true)
    (hr : blockOffset b + 16 ≤ s.cfg.dbufBytes) (hw : Written s.dbuf (blockOffset b) 16) :
    transformBlock f b s = .next (completeWith .none (transformed f b s)) := by
  unfold transformBlock
  rw [if_neg (by simp [hc]), if_neg (by omega), readBlock_of_written hw]
  rfl

theorem transformBlock_eq_next {f : Block → Block} {b : Nat} {s t : State} (h : transformBlock f b s = .next t) :
    (∃ e, e ≠ .none ∧ t = completeWith e s) ∨
      (s.ctxv = true ∧ blockOffset b + 16 ≤ s.cfg.dbufBytes ∧ Written s.dbuf (blockOffset b) 16 ∧
        t = completeWith .none (transformed f b s)) := by
  unfold transformBlock at h
  split_ifs at h with h1 h2
  · exact .inl ⟨_, by decide, raiseError_eq_next.mp h⟩
  · exact .inl ⟨_, by decide, raiseError_eq_next.mp h⟩
  · obtain ⟨u, hu, rfl⟩ := finishWith_eq_next.mp h
    obtain ⟨x, hx, rfl⟩ := except_map_eq_ok.mp hu
    obtain ⟨hw, rfl⟩ := readBlock_ok hx
    exact .inr ⟨by simpa using h1, by omega, hw, rfl⟩

theorem transformBlock_eq_fault {f : Block → Block} {b : Nat} {s : State} {e : Fault}
    (h : transformBlock f b s = .fault e) :
    ∃ o, o < s.cfg.dbufBytes ∧ e = .dbufUnwritten o ∧ memGet s.dbuf o = none := by
  unfold transformBlock at h
  split_ifs at h with h1 h2
  · simp [raiseError] at h
  · simp [raiseError] at h
  · obtain ⟨j, hj, rfl, hn⟩ := readBlock_eq_error (except_map_eq_error.mp (finishWith_eq_fault.mp h))
    exact ⟨_, by omega, rfl, hn⟩

theorem transformBlock_ne_refused (f : Block → Block) (b : Nat) (s : State) (x : Refusal) :
    transformBlock f b s ≠ .refused x := by
  unfold transformBlock
  split_ifs
  · simp [raiseError]
  · simp [raiseError]
  · exact finishWith_ne_refused _ _

/-- A command that answers a next state either failed, and then changed only ERR, BUSY and DONE, or had its effect. -/
theorem exec_eq_next {i : Instr} {s t : State} (h : exec i s = .next t) :
    (∃ e, e ≠ .none ∧ t = completeWith e s) ∨ ∃ u, t = completeWith .none u ∧ Effect i s u := by
  cases i with
  | nop => exact .inr ⟨s, (Host.Outcome.next.inj h).symm, rfl⟩
  | keyexp tweak nk =>
    simp only [exec, execKeyexp] at h
    split_ifs at h with h1
    · exact .inr ⟨_, (Host.Outcome.next.inj h).symm, h1, rfl⟩
    · exact .inl ⟨_, by decide, raiseError_eq_next.mp h⟩
  | encb b =>
    rcases transformBlock_eq_next h with h | ⟨h1, h2, h3, h4⟩
    · exact .inl h
    · exact .inr ⟨_, h4, h1, h2, h3, rfl⟩
  | decb b =>
    rcases transformBlock_eq_next h with h | ⟨h1, h2, h3, h4⟩
    · exact .inl h
    · exact .inr ⟨_, h4, h1, h2, h3, rfl⟩
  | cbcenc iven =>
    simp only [exec, execCbcenc] at h
    split_ifs at h with h1 h2
    · exact .inl ⟨_, by decide, raiseError_eq_next.mp h⟩
    · exact .inl ⟨_, by decide, raiseError_eq_next.mp h⟩
    · obtain ⟨u, hu, rfl⟩ := finishWith_eq_next.mp h
      exact .inr ⟨u, rfl, by simpa using h1, by omega, hu⟩
  | cbcdec iven =>
    simp only [exec, execCbcdec] at h
    split_ifs at h with h1 h2 h3
    · exact .inl ⟨_, by decide, raiseError_eq_next.mp h⟩
    · exact .inl ⟨_, by decide, raiseError_eq_next.mp h⟩
    · exact .inl ⟨_, by decide, raiseError_eq_next.mp h⟩
    · obtain ⟨u, hu, rfl⟩ := finishWith_eq_next.mp h
      exact .inr ⟨u, rfl, by simpa using h1, by omega, by omega, by omega, hu⟩
  | mac =>
    simp only [exec, execMac] at h
    split_ifs at h with h1
    · exact .inl ⟨_, by decide, raiseError_eq_next.mp h⟩
    · obtain ⟨u, hu, rfl⟩ := finishWith_eq_next.mp h
      exact .inr ⟨u, rfl, by omega, hu⟩

/-- A command stops only on a DBUF byte inside the capacity that is not written (log 6). -/
theorem exec_eq_fault {i : Instr} {s : State} {f : Fault} (h : exec i s = .fault f) :
    ∃ o, o < s.cfg.dbufBytes ∧ f = .dbufUnwritten o ∧ memGet s.dbuf o = none := by
  cases i with
  | nop => simp [exec, execNop, finish] at h
  | keyexp tweak nk => simp only [exec, execKeyexp] at h; split_ifs at h <;> simp [finish, raiseError] at h
  | encb b => exact transformBlock_eq_fault h
  | decb b => exact transformBlock_eq_fault h
  | cbcenc iven =>
    simp only [exec, execCbcenc] at h
    split_ifs at h with h1 h2
    · simp [raiseError] at h
    · simp [raiseError] at h
    · obtain ⟨o, ho, hf, hn⟩ := cbcEncrypt_eq_error (finishWith_eq_fault.mp h)
      exact ⟨o, by omega, hf, hn⟩
  | cbcdec iven =>
    simp only [exec, execCbcdec] at h
    split_ifs at h with h1 h2 h3
    · simp [raiseError] at h
    · simp [raiseError] at h
    · simp [raiseError] at h
    · obtain ⟨o, ho, hf, hn⟩ := cbcDecrypt_eq_error (finishWith_eq_fault.mp h)
      exact ⟨o, by omega, hf, hn⟩
  | mac =>
    simp only [exec, execMac] at h
    split_ifs at h with h1
    · simp [raiseError] at h
    · obtain ⟨o, ho, hf, hn⟩ := macEffect_eq_error (finishWith_eq_fault.mp h)
      exact ⟨o, by omega, hf, hn⟩

/-- No command is refused. -/
theorem exec_ne_refused (i : Instr) (s : State) (x : Refusal) : exec i s ≠ .refused x := by
  cases i with
  | nop => simp [exec, execNop, finish]
  | keyexp tweak nk => simp only [exec, execKeyexp]; split_ifs <;> simp [finish, raiseError]
  | encb b => exact transformBlock_ne_refused _ _ _ _
  | decb b => exact transformBlock_ne_refused _ _ _ _
  | cbcenc iven =>
    simp only [exec, execCbcenc]
    split_ifs
    · simp [raiseError]
    · simp [raiseError]
    · exact finishWith_ne_refused _ _
  | cbcdec iven =>
    simp only [exec, execCbcdec]
    split_ifs
    · simp [raiseError]
    · simp [raiseError]
    · simp [raiseError]
    · exact finishWith_ne_refused _ _
  | mac =>
    simp only [exec, execMac]
    split_ifs
    · simp [raiseError]
    · exact finishWith_ne_refused _ _

/-- No command's effect writes these fields. -/
theorem Effect.kept {i : Instr} {s u : State} (h : Effect i s u) :
    u.cfg = s.cfg ∧ u.ie = s.ie ∧ u.ovr = s.ovr ∧ u.cmd = s.cmd ∧ u.key = s.key ∧ u.iv = s.iv ∧ u.rdata = s.rdata ∧
      u.host = s.host ∧ u.draws = s.draws := by
  cases i with
  | nop => obtain rfl : u = s := h; simp
  | keyexp => obtain ⟨-, rfl⟩ := h; simp
  | encb => obtain ⟨-, -, -, rfl⟩ := h; simp
  | decb => obtain ⟨-, -, -, rfl⟩ := h; simp
  | cbcenc => rw [(cbcEncrypt_eq_ok h.2.2).1]; simp
  | cbcdec => rw [(cbcDecrypt_eq_ok h.2.2.2.2).1]; simp
  | mac => rw [macEffect_eq_ok h.2]; simp

/-- Only KEYEXP's effect writes the context (10_state.md R32). -/
theorem Effect.context {i : Instr} {s u : State} (h : Effect i s u) (hi : ∀ tweak nk, i ≠ .keyexp tweak nk) :
    u.rk = s.rk ∧ u.nr = s.nr ∧ u.twk = s.twk ∧ u.ctxv = s.ctxv := by
  cases i with
  | nop => obtain rfl : u = s := h; simp
  | keyexp tweak nk => exact absurd rfl (hi tweak nk)
  | encb => obtain ⟨-, -, -, rfl⟩ := h; simp
  | decb => obtain ⟨-, -, -, rfl⟩ := h; simp
  | cbcenc => rw [(cbcEncrypt_eq_ok h.2.2).1]; simp
  | cbcdec => rw [(cbcDecrypt_eq_ok h.2.2.2.2).1]; simp
  | mac => rw [macEffect_eq_ok h.2]; simp

/-- Only MAC's effect writes TAG (10_state.md R31). -/
theorem Effect.tag {i : Instr} {s u : State} (h : Effect i s u) (hi : i ≠ .mac) : u.tag = s.tag := by
  cases i with
  | nop => obtain rfl : u = s := h; rfl
  | keyexp => obtain ⟨-, rfl⟩ := h; simp
  | encb => obtain ⟨-, -, -, rfl⟩ := h; simp
  | decb => obtain ⟨-, -, -, rfl⟩ := h; simp
  | cbcenc => rw [(cbcEncrypt_eq_ok h.2.2).1]
  | cbcdec => rw [(cbcDecrypt_eq_ok h.2.2.2.2).1]
  | mac => exact absurd rfl hi

/-- Every effect on DBUF stays inside the capacity, keeps the canonical form, and forgets no byte. -/
theorem Effect.dbuf {i : Instr} {s u : State} (h : Effect i s u) : KeepsBuffer s.dbuf u.dbuf 0 s.cfg.dbufBytes := by
  cases i with
  | nop => obtain rfl : u = s := h; exact keepsBuffer_refl _ _ _
  | keyexp => obtain ⟨-, rfl⟩ := h; simpa using keepsBuffer_refl s.dbuf 0 _
  | encb => obtain ⟨-, hr, -, rfl⟩ := h; simp only [transformed_dbuf]; exact (keepsBuffer_writeBlock _ _ _).widen (by omega) (by omega)
  | decb => obtain ⟨-, hr, -, rfl⟩ := h; simp only [transformed_dbuf]; exact (keepsBuffer_writeBlock _ _ _).widen (by omega) (by omega)
  | cbcenc =>
    have := h.2.1
    have := padCount_le s.len.toNat
    exact (cbcEncrypt_eq_ok h.2.2).2.widen (by omega) (by omega)
  | cbcdec =>
    have := h.2.2.2.1
    exact (cbcDecrypt_eq_ok h.2.2.2.2).2.widen (by omega) (by omega)
  | mac =>
    have := h.1
    have := macLength_le s.len.toNat
    rw [macEffect_eq_ok h.2]
    exact (keepsBuffer_macPad _ _).widen (by omega) (by omega)

end Sys2Proof.Machine
end

