-- ==== Sys2Proof/Laws/Cycle.lean ====
section
/-! SUPPORT. What one cycle can do, said once: the core's part (`coreCycle_eq_next`), the host's part (`hostRead_eq_next`,
`hostWrite_cases`, `pollStatus_eq`), and the step made of them (`step_eq_next`). -/

namespace Sys2Proof.Machine

theorem andThen_eq_next {r : Result} {f : State → Result} {t : State} :
    andThen r f = .next t ↔ ∃ u, r = .next u ∧ f u = .next t := by
  cases r <;> simp [andThen]

theorem andThen_eq_fault {r : Result} {f : State → Result} {e : Fault} :
    andThen r f = .fault e ↔ r = .fault e ∨ ∃ u, r = .next u ∧ f u = .fault e := by
  cases r <;> simp [andThen]

theorem andThen_eq_refused {r : Result} {f : State → Result} {e : Refusal} :
    andThen r f = .refused e ↔ r = .refused e ∨ ∃ u, r = .next u ∧ f u = .refused e := by
  cases r <;> simp [andThen]

/-- The completion of the word in CMD: of a command, or of an illegal word (45_control.md R202, R203). -/
theorem completeCommand_eq_next {s t : State} (h : completeCommand s = .next t) :
    (∃ e, e ≠ .none ∧ t = completeWith e s) ∨ ∃ i u, decode s.cmd = .instr i ∧ t = completeWith .none u ∧ Effect i s u := by
  unfold completeCommand at h
  split at h
  · rename_i i hi
    rcases exec_eq_next h with h | ⟨u, h1, h2⟩
    · exact .inl h
    · exact .inr ⟨i, u, hi, h1, h2⟩
  · exact .inl ⟨_, by decide, raiseError_eq_next.mp h⟩

theorem completeCommand_eq_fault {s : State} {f : Fault} (h : completeCommand s = .fault f) :
    ∃ o, o < s.cfg.dbufBytes ∧ f = .dbufUnwritten o ∧ memGet s.dbuf o = none := by
  unfold completeCommand at h
  split at h
  · exact exec_eq_fault h
  · simp [execIllegal, raiseError] at h

theorem completeCommand_ne_refused (s : State) (x : Refusal) : completeCommand s ≠ .refused x := by
  unfold completeCommand
  split
  · exact exec_ne_refused _ _ _
  · simp [execIllegal, raiseError]

/-- The core's part of a cycle: nothing, a cycle counted, or the completion (10_state.md R20). -/
theorem coreCycle_eq_next {s u : State} (h : coreCycle s = .next u) :
    (s.inflight = none ∧ u = s) ∨ (∃ n, s.inflight = some (n + 2) ∧ u = { s with inflight := some (n + 1) }) ∨
      ((∃ n, s.inflight = some n ∧ n ≤ 1) ∧ completeCommand s = .next u) := by
  unfold coreCycle at h
  split at h <;> rename_i hi
  · exact .inl ⟨hi, (Host.Outcome.next.inj h).symm⟩
  · exact .inr (.inr ⟨⟨0, hi, by omega⟩, h⟩)
  · exact .inr (.inr ⟨⟨1, hi, by omega⟩, h⟩)
  · exact .inr (.inl ⟨_, hi, (Host.Outcome.next.inj h).symm⟩)

theorem coreCycle_of_due {s : State} {n : Nat} (h : s.inflight = some n) (hn : n ≤ 1) : coreCycle s = completeCommand s := by
  obtain rfl | rfl : n = 0 ∨ n = 1 := by omega
  all_goals simp only [coreCycle, h]

theorem coreCycle_of_waiting {s : State} {n : Nat} (h : s.inflight = some (n + 2)) :
    coreCycle s = .next { s with inflight := some (n + 1) } := by
  simp only [coreCycle, h]

theorem coreCycle_of_idle {s : State} (h : s.inflight = none) : coreCycle s = .next s := by
  simp only [coreCycle, h]

theorem coreCycle_eq_fault {s : State} {f : Fault} (h : coreCycle s = .fault f) : completeCommand s = .fault f := by
  unfold coreCycle at h
  split at h
  · simp at h
  · exact h
  · exact h
  · simp at h

theorem coreCycle_ne_refused (s : State) (x : Refusal) : coreCycle s ≠ .refused x := by
  unfold coreCycle
  split
  · simp
  · exact completeCommand_ne_refused _ _
  · exact completeCommand_ne_refused _ _
  · simp

/-- A host read changes the read-data port and, when its value is unspecified, the count of free values; nothing else. -/
theorem hostRead_eq_next {a : BitVec 14} {u t : State} (h : hostRead a u = .next t) :
    ∃ v d, t = { u with rdata := some v, draws := d } := by
  unfold hostRead at h
  split_ifs at h
  · exact ⟨_, _, (Host.Outcome.next.inj h).symm⟩
  · split at h
    · exact ⟨_, _, (Host.Outcome.next.inj h).symm⟩
    · simp at h

/-- A host write leaves the machine as it is, sets OVR, or writes what is selected. -/
theorem hostWrite_cases (a : BitVec 14) (v : Word) (u : State) :
    hostWrite a v u = u ∨ (busy u = true ∧ hostWrite a v u = overrun u) ∨
    (regAt u.cfg a = .ctrl ∧ hostWrite a v u = { u with ie := v.getLsbD 0 }) ∨
    (regAt u.cfg a = .status ∧ hostWrite a v u = writeStatus v u) ∨
    (busy u = false ∧
      ((regAt u.cfg a = .cmd ∧ hostWrite a v u = acceptCommand v u) ∨
      (regAt u.cfg a = .len ∧ hostWrite a v u = { u with len := v }) ∨
      (∃ k, regAt u.cfg a = .key k ∧ hostWrite a v u = { u with key := u.key.set k v }) ∨
      (∃ k, regAt u.cfg a = .iv k ∧ hostWrite a v u = { u with iv := u.iv.set k v }) ∨
      (∃ k, regAt u.cfg a = .dbuf k ∧ hostWrite a v u = { u with dbuf := writeQuad u.dbuf (4 * k) (unpackWord v) }))) := by
  unfold hostWrite
  rcases hb : busy u <;> cases hr : regAt u.cfg a <;> simp [writeReg, unlessBusy, hb]

/-- `poll` reads STATUS, and stays when BUSY = 1 (30_encoding.md R89). -/
theorem pollStatus_eq (u : State) :
    pollStatus u = .next { u with
      rdata := some (statusWord u)
      host := if (statusWord u).getLsbD 0 then .poll :: u.host else u.host } := by
  have hr : regAt u.cfg (wordAddress 0x008) = .status := rfl
  unfold pollStatus hostRead
  rw [hr]
  simp only [hiddenWhileBusy, Bool.and_false, Bool.false_eq_true, if_false, readReg, andThen]
  split_ifs <;> rfl

/-- What one step can do: a cycle with `rst` = 1; else the core's part, then the host's. -/
theorem step_eq_next {s t : State} (h : step s = .next t) :
    (∃ x, hostOp s = .reset x ∧ t = resetCycle x (beginCycle s)) ∨
    ∃ u, coreCycle (beginCycle s) = .next u ∧
      ((hostOp s = .idle ∧ t = u) ∨
      (∃ a, hostOp s = .access (.rd a) ∧ hostRead a u = .next t) ∨
      (∃ a v, hostOp s = .access (.wr a v) ∧ t = hostWrite a v u) ∨
      (hostOp s = .poll ∧ pollStatus u = .next t)) := by
  unfold step cycle at h
  split at h <;> rename_i ho
  · exact .inl ⟨_, ho, (Host.Outcome.next.inj h).symm⟩
  · exact .inr ⟨t, h, .inl ⟨ho, rfl⟩⟩
  · obtain ⟨u, hu, ht⟩ := andThen_eq_next.mp h
    refine .inr ⟨u, hu, ?_⟩
    rename_i x
    cases x with
    | rd a => exact .inr (.inl ⟨a, ho, ht⟩)
    | wr a v => exact .inr (.inr (.inl ⟨a, v, ho, (Host.Outcome.next.inj ht).symm⟩))
  · obtain ⟨u, hu, ht⟩ := andThen_eq_next.mp h
    exact .inr ⟨u, hu, .inr (.inr (.inr ⟨ho, ht⟩))⟩

theorem step_of_reset {s : State} {x : Option Access} (h : hostOp s = .reset x) :
    step s = .next (resetCycle x (beginCycle s)) := by
  simp only [step, cycle, h]

theorem step_of_idle {s : State} (h : hostOp s = .idle) : step s = coreCycle (beginCycle s) := by
  simp only [step, cycle, h]

theorem step_of_access {s u : State} {x : Access} (hu : coreCycle (beginCycle s) = .next u)
    (h : hostOp s = .access x) : step s = hostAccess x u := by
  simp only [step, cycle, h, hu, andThen]

theorem step_of_poll {s u : State} (hu : coreCycle (beginCycle s) = .next u) (h : hostOp s = .poll) :
    step s = pollStatus u := by
  simp only [step, cycle, h, hu, andThen]

end Sys2Proof.Machine
end

