-- ==== Sys2Proof/Laws/Encoding.lean ====
section
/-! SUPPORT. The fields of a command word put together and read back (30_encoding.md R80). -/

namespace Sys2Proof

@[simp] theorem opField_wordOfFields (bidx : BitVec 16) (nk : BitVec 4) (tweak iven : Bool) (op : BitVec 4) :
    opField (wordOfFields bidx nk tweak iven op) = op := by
  apply BitVec.eq_of_getLsbD_eq; intro i hi
  simp only [opField, wordOfFields, BitVec.getLsbD_extractLsb', BitVec.getLsbD_append]
  interval_cases i <;> simp

@[simp] theorem ivenField_wordOfFields (bidx : BitVec 16) (nk : BitVec 4) (tweak iven : Bool) (op : BitVec 4) :
    ivenField (wordOfFields bidx nk tweak iven op) = iven := by
  simp only [ivenField, wordOfFields, BitVec.getLsbD_append]; simp

@[simp] theorem tweakField_wordOfFields (bidx : BitVec 16) (nk : BitVec 4) (tweak iven : Bool) (op : BitVec 4) :
    tweakField (wordOfFields bidx nk tweak iven op) = tweak := by
  simp only [tweakField, wordOfFields, BitVec.getLsbD_append]; simp

@[simp] theorem reserved76_wordOfFields (bidx : BitVec 16) (nk : BitVec 4) (tweak iven : Bool) (op : BitVec 4) :
    reserved76 (wordOfFields bidx nk tweak iven op) = 0 := by
  apply BitVec.eq_of_getLsbD_eq; intro i hi
  simp only [reserved76, wordOfFields, BitVec.getLsbD_extractLsb', BitVec.getLsbD_append]
  interval_cases i <;> simp

@[simp] theorem nkField_wordOfFields (bidx : BitVec 16) (nk : BitVec 4) (tweak iven : Bool) (op : BitVec 4) :
    nkField (wordOfFields bidx nk tweak iven op) = nk := by
  apply BitVec.eq_of_getLsbD_eq; intro i hi
  simp only [nkField, wordOfFields, BitVec.getLsbD_extractLsb', BitVec.getLsbD_append]
  interval_cases i <;> simp

@[simp] theorem reserved1512_wordOfFields (bidx : BitVec 16) (nk : BitVec 4) (tweak iven : Bool) (op : BitVec 4) :
    reserved1512 (wordOfFields bidx nk tweak iven op) = 0 := by
  apply BitVec.eq_of_getLsbD_eq; intro i hi
  simp only [reserved1512, wordOfFields, BitVec.getLsbD_extractLsb', BitVec.getLsbD_append]
  interval_cases i <;> simp

@[simp] theorem bidxField_wordOfFields (bidx : BitVec 16) (nk : BitVec 4) (tweak iven : Bool) (op : BitVec 4) :
    bidxField (wordOfFields bidx nk tweak iven op) = bidx := by
  apply BitVec.eq_of_getLsbD_eq; intro i hi
  simp only [bidxField, wordOfFields, BitVec.getLsbD_extractLsb', BitVec.getLsbD_append]
  interval_cases i <;> simp

/-- A word whose reserved fields are clear is the word of its fields. -/
theorem wordOfFields_fields {w : Word} (h76 : reserved76 w = 0) (h1512 : reserved1512 w = 0) :
    wordOfFields (bidxField w) (nkField w) (tweakField w) (ivenField w) (opField w) = w := by
  have a6 := congrArg (fun v => v.getLsbD 0) h76
  have a7 := congrArg (fun v => v.getLsbD 1) h76
  have a12 := congrArg (fun v => v.getLsbD 0) h1512
  have a13 := congrArg (fun v => v.getLsbD 1) h1512
  have a14 := congrArg (fun v => v.getLsbD 2) h1512
  have a15 := congrArg (fun v => v.getLsbD 3) h1512
  simp only [reserved76, reserved1512, BitVec.getLsbD_extractLsb'] at a6 a7 a12 a13 a14 a15
  apply BitVec.eq_of_getLsbD_eq; intro i hi
  simp only [bidxField, nkField, tweakField, ivenField, opField, wordOfFields, BitVec.getLsbD_extractLsb', BitVec.getLsbD_append]
  interval_cases i <;> simp_all

end Sys2Proof
end

