-- ==== Sys2Proof/Laws/HostPort.lean ====
section
/-! SUPPORT. Laws of the register map and of STATUS as the host reads it, of what the core's part of a cycle keeps, and of the
invariant's parts under an update that leaves their fields alone. -/

namespace Sys2Proof.Machine

theorem regAt_id (c : Config) : regAt c (wordAddress 0x000) = .id := rfl

theorem regAt_ctrl (c : Config) : regAt c (wordAddress 0x004) = .ctrl := rfl

theorem regAt_status (c : Config) : regAt c (wordAddress 0x008) = .status := rfl

theorem regAt_cmd (c : Config) : regAt c (wordAddress 0x00C) = .cmd := rfl

theorem byteAddress_wordAddress {b : Nat} (h : b < 0x10000) (h4 : b % 4 = 0) : byteAddress (wordAddress b) = b := by
  simp [byteAddress, wordAddress]; omega

/-- The window word of a byte offset inside the capacity (20_memory.md R51, R57). -/
theorem regAt_window {c : Config} (hc : c.Legal) {k : Nat} (hk : 4 * k < c.dbufBytes) :
    regAt c (wordAddress (0x1000 + 4 * k)) = .dbuf k := by
  obtain ⟨-, -, hmax⟩ := hc
  rw [regAt, byteAddress_wordAddress (by omega) (by omega)]
  unfold regOfByteAddress
  rw [if_neg (by omega), if_neg (by omega), if_neg (by omega), if_neg (by omega), if_neg (by omega), if_neg (by omega),
    dif_neg (by omega), dif_neg (by omega), dif_neg (by omega), dif_neg (by omega), if_pos (by omega)]
  congr 1; omega

/-- A word the map selects in the window lies inside the capacity. -/
theorem window_lt {c : Config} (hc : c.Legal) {a : BitVec 14} {k : Nat} (h : regAt c a = .dbuf k) :
    4 * k + 4 ≤ c.dbufBytes := by
  obtain ⟨h16, -, -⟩ := hc
  have hb : byteAddress a % 4 = 0 := Nat.mul_mod_right 4 _
  rw [regAt] at h
  revert h hb
  generalize byteAddress a = b
  intro h hb
  unfold regOfByteAddress at h
  by_cases hw : 0x1000 ≤ b ∧ b - 0x1000 < c.dbufBytes
  · rw [if_neg (by omega), if_neg (by omega), if_neg (by omega), if_neg (by omega), if_neg (by omega), if_neg (by omega),
      dif_neg (by omega), dif_neg (by omega), dif_neg (by omega), dif_neg (by omega), if_pos hw] at h
    have := Reg.dbuf.inj h
    omega
  · rw [if_neg hw] at h
    split_ifs at h

/-- A bit of STATUS as the host reads it (10_state.md R24). -/
theorem statusWord_bit (s : State) (i : Nat) : (statusWord s).getLsbD i =
    if i = 0 then busy s else if i = 1 then s.done else if i = 2 then s.ctxv else if i = 3 then s.ovr
    else if i = 4 then s.twk else if 8 ≤ i ∧ i < 12 then (errBits s.err).getLsbD (i - 8)
    else if 16 ≤ i ∧ i < 20 then s.nr.getLsbD (i - 16) else false := by
  by_cases hi : i < 32
  · simp only [statusWord, BitVec.getLsbD_append]
    interval_cases i <;> simp
  · rw [BitVec.getLsbD_of_ge _ _ (by omega)]
    split_ifs <;> first | rfl | omega

theorem unpackWord_byte (w : Word) : ∀ j < 4, quadByte (unpackWord w) j = w.extractLsb' (8 * j) 8 := by
  intro j hj; interval_cases j <;> rfl

/-- The core's part of a cycle writes none of these fields. -/
theorem coreCycle_kept {s u : State} (h : coreCycle s = .next u) :
    u.cfg = s.cfg ∧ u.ie = s.ie ∧ u.ovr = s.ovr ∧ u.cmd = s.cmd ∧ u.key = s.key ∧ u.iv = s.iv ∧ u.rdata = s.rdata ∧
      u.host = s.host ∧ u.draws = s.draws := by
  rcases coreCycle_eq_next h with ⟨-, rfl⟩ | ⟨n, -, rfl⟩ | ⟨-, h⟩
  · simp
  · simp
  · rcases completeCommand_eq_next h with ⟨e, -, rfl⟩ | ⟨i, v, -, rfl, he⟩
    · simp
    · simpa using he.kept

theorem ContextOk.congr {s t : State} (h : ContextOk s) (h1 : t.ctxv = s.ctxv) (h2 : t.nr = s.nr) (h3 : t.twk = s.twk)
    (h4 : t.rk = s.rk) : ContextOk t := by
  unfold ContextOk; rw [h1, h2, h3, h4]; exact h

theorem BufferOk.congr {s t : State} (h : BufferOk s) (h1 : t.dbuf = s.dbuf) (h2 : t.cfg = s.cfg) : BufferOk t := by
  unfold BufferOk; rw [h1, h2]; exact h

theorem InflightOk.congr {s t : State} (h : InflightOk s) (h1 : t.inflight = s.inflight) (h2 : t.done = s.done)
    (h3 : t.err = s.err) : InflightOk t := by
  unfold InflightOk; rw [h1, h2, h3]; exact h

end Sys2Proof.Machine
end

