-- ==== Sys2Proof/Laws/KeySchedule.lean ====
section
/-! SUPPORT. Laws of the key expansion: its length, the recurrence its words follow, what one tweak byte changes, and the
context KEYEXP loads (41_key_schedule.md R133 to R138). -/

namespace Sys2Proof.Machine

@[simp] theorem extendWords_length (nk n : Nat) (w : List Quad) : (extendWords nk n w).length = w.length + n := by
  induction n generalizing w with
  | zero => rfl
  | succ n ih => rw [extendWords, ih]; simp; omega

theorem supportedNk_bounds {nk : Nat} (hs : supportedNk nk) : 4 ≤ nk ∧ nk ≤ 8 := by
  rcases hs with rfl | rfl | rfl | rfl <;> omega

/-- NW words are expanded (R133). -/
theorem keyWords_length {key : List Quad} {nk : Nat} (h : nk ≤ key.length) (hs : supportedNk nk) :
    (keyWords key nk).length = 4 * (nk + 7) := by
  have := supportedNk_bounds hs
  simp [keyWords, roundKeyWords]; omega

/-- Extending the words keeps those already there. -/
theorem extendWords_getD_of_lt (nk n : Nat) (w : List Quad) (i : Nat) (hi : i < w.length) (d : Quad) :
    (extendWords nk n w).reverse.getD i d = w.reverse.getD i d := by
  induction n generalizing w with
  | zero => rfl
  | succ n ih =>
    rw [extendWords, ih _ (by simp; omega), List.reverse_cons, List.getD_append _ _ _ _ (by simpa using hi)]

/-- A word added is `scheduleWord` of the word before it and the word `nk` before it. -/
theorem extendWords_getD (nk n : Nat) (w : List Quad) (i : Nat) (hnk : 1 ≤ nk) (hw : nk ≤ w.length) (h1 : w.length ≤ i)
    (h2 : i < w.length + n) :
    (extendWords nk n w).reverse.getD i quadZero =
      scheduleWord nk i ((extendWords nk n w).reverse.getD (i - 1) quadZero)
        ((extendWords nk n w).reverse.getD (i - nk) quadZero) := by
  induction n generalizing w with
  | zero => omega
  | succ n ih =>
    rw [extendWords]
    by_cases h : i = w.length
    · subst h
      rw [extendWords_getD_of_lt _ _ _ _ (by simp), extendWords_getD_of_lt _ _ _ _ (by simp),
        extendWords_getD_of_lt _ _ _ _ (by simp)]
      have back : ∀ v j, 1 ≤ j → j ≤ w.length →
          (w.reverse ++ [v]).getD (w.length - j) quadZero = w.getD (j - 1) quadZero := by
        intro v j hj hj'
        rw [List.getD_append _ _ _ _ (by simp; omega), List.getD_eq_getElem _ _ (by simp; omega),
          List.getD_eq_getElem _ _ (by omega), List.getElem_reverse]
        congr 1; omega
      rw [List.reverse_cons, back _ 1 (by omega) (by omega), back _ nk (by omega) (by omega),
        List.getD_append_right _ _ _ _ (by simp)]
      simp
    · exact ih _ (by simp; omega) (by simp; omega) (by simp; omega)

/-- What the tweak does to one byte of an image (R136). -/
theorem imageByte_xorImageByte (k : RoundKeys) (b : Nat) (v : Byte) (hb : b < 4 * k.length) (j : Nat) :
    imageByte (xorImageByte k b v) j = imageByte k j ^^^ (if j = b then v else 0) := by
  unfold imageByte xorImageByte
  rw [List.getD_eq_getElem?_getD, List.getElem?_modify]
  by_cases h : b / 4 = j / 4
  · have hj : j / 4 < k.length := by omega
    simp only [h, if_true, List.getElem?_eq_getElem hj, List.getD_eq_getElem?_getD]
    simp only [Option.map_some, Option.getD_some, Option.map_eq_map]
    rw [quadByte_quadXor]
    congr 1
    have : (j = b) ↔ (j % 4 = b % 4) := by omega
    simp only [this]
    have h4 : j % 4 < 4 := Nat.mod_lt _ (by omega)
    generalize j % 4 = x at *
    interval_cases x <;> rfl
  · have : j ≠ b := fun e => h (by rw [e])
    simp [h, this]

@[simp] theorem xorImageByte_length (k : RoundKeys) (b : Nat) (v : Byte) : (xorImageByte k b v).length = k.length := by
  simp [xorImageByte]

theorem keyExpand_true (key : List Quad) (nk : Nat) :
    (keyExpand key nk true).1 = applyTweak (keyExpand key nk false).1 := rfl

/-- The image has 60 words (R133). -/
theorem keyExpand_length {key : List Quad} {nk : Nat} (tweak : Bool) (h : nk ≤ key.length) (hs : supportedNk nk) :
    (keyExpand key nk tweak).1.length = 60 := by
  have hl := keyWords_length h hs
  have := supportedNk_bounds hs
  cases tweak
  · simp [keyExpand, hl]; omega
  · rw [keyExpand_true]; simp [applyTweak, keyExpand, hl]; omega

/-- The context KEYEXP loads is the image (R138). -/
theorem contextKeys_loadContext {key : List Quad} {nk : Nat} (tweak : Bool) (h : nk ≤ key.length) (hs : supportedNk nk)
    (s : State) : contextKeys (loadContext (keyExpand key nk tweak) tweak s) = (keyExpand key nk tweak).1 := by
  rw [contextKeys, loadContext_rk, unpack_packRoundKeys (keyExpand_length tweak h hs)]

/-- The words of an image beyond the round keys are zero (R137). -/
theorem keyExpand_beyond {key : List Quad} {nk : Nat} (tweak : Bool) (h : nk ≤ key.length) (hs : supportedNk nk) {i : Nat}
    (hi : 4 * (nk + 7) ≤ i) : (keyExpand key nk tweak).1.getD i quadZero = quadZero := by
  have hl := keyWords_length h hs
  have := supportedNk_bounds hs
  have plain : (keyExpand key nk false).1.getD i quadZero = quadZero := by
    simp only [keyExpand, Bool.false_eq_true, if_false]
    rw [List.getD_append_right _ _ _ _ (by omega)]
    simp
  cases tweak
  · exact plain
  · have other : ∀ (k : RoundKeys) (b : Nat) (v : Byte), b / 4 ≠ i → (xorImageByte k b v).getD i quadZero = k.getD i quadZero := by
      intro k b v hb
      rw [xorImageByte, List.getD_eq_getElem?_getD, List.getElem?_modify_ne _ _ hb, ← List.getD_eq_getElem?_getD]
    rw [keyExpand_true, applyTweak, other _ _ _ (by omega), other _ _ _ (by omega), other _ _ _ (by omega)]
    exact plain

/-- KEYEXP leaves a consistent context (R137, R138). -/
theorem contextOk_loadContext {key : List Quad} {nk : Nat} (tweak : Bool) (h : nk ≤ key.length) (hs : supportedNk nk)
    (s : State) : ContextOk (loadContext (keyExpand key nk tweak) tweak s) := by
  have hb := supportedNk_bounds hs
  have hnr : (loadContext (keyExpand key nk tweak) tweak s).nr.toNat = nk + 6 := by
    simp only [loadContext_nr, keyExpand, BitVec.toNat_ofNat]; omega
  refine ⟨fun hc => by simp at hc, fun _ => ⟨?_, ?_⟩⟩
  · rw [hnr]; rcases hs with rfl | rfl | rfl | rfl <;> simp
  · intro k hk
    rw [hnr] at hk
    have hz := keyExpand_beyond tweak h hs (i := k.val) (by omega)
    have hq : unpackWord (loadContext (keyExpand key nk tweak) tweak s).rk[k] = quadZero := by
      have := contextKeys_loadContext tweak h hs s
      rw [← this, contextKeys, List.getD_eq_getElem _ _ (by simp)] at hz
      simpa using hz
    have := congrArg packQuad hq
    rw [packQuad_unpackWord] at this
    rw [this]; rfl

end Sys2Proof.Machine
end

