-- ==== Sys2Proof/Laws/PerInstr.lean ====
section
/-! SUPPORT. Facts made per instruction, one lemma for each constructor of `Instr`. Family `OperandsInUse`: in the word of a
command, every field that the command does not use is clear (30_encoding.md R86, R87). -/

namespace Sys2Proof.Laws.OperandsInUse

/-- Which of the fields IVEN, TWEAK, NK and BIDX a command uses (R80, R86), and that its word sets no bit elsewhere. -/
def Statement (i : Instr) : Prop :=
  match i with
  | .nop => unusedClear (encode i) false false false false = true
  | .keyexp _ _ => unusedClear (encode i) false true true false = true
  | .encb _ => unusedClear (encode i) false false false true = true
  | .decb _ => unusedClear (encode i) false false false true = true
  | .cbcenc _ => unusedClear (encode i) true false false false = true
  | .cbcdec _ => unusedClear (encode i) true false false false = true
  | .mac => unusedClear (encode i) false false false false = true

theorem nop : Statement .nop := by simp [Statement, encode, unusedClear]

theorem keyexp (tweak : Bool) (nk : Nat) : Statement (.keyexp tweak nk) := by simp [Statement, encode, unusedClear]

theorem encb (bidx : Nat) : Statement (.encb bidx) := by simp [Statement, encode, unusedClear]

theorem decb (bidx : Nat) : Statement (.decb bidx) := by simp [Statement, encode, unusedClear]

theorem cbcenc (iven : Bool) : Statement (.cbcenc iven) := by simp [Statement, encode, unusedClear]

theorem cbcdec (iven : Bool) : Statement (.cbcdec iven) := by simp [Statement, encode, unusedClear]

theorem mac : Statement .mac := by simp [Statement, encode, unusedClear]

end Sys2Proof.Laws.OperandsInUse
end

