-- ==== Sys2Proof/Tests/Slice0.lean ====
section
/-! SUPPORT. The model's own tests: expected values from 95_test_vectors.md (each named), words written field by field from
30_encoding.md R80, and a witness for the hypotheses of every obligation. -/

namespace Sys2Proof.Machine.Tests

open Sys2Proof Sys2Proof.Machine

/-! ### Helpers: small states -/

/-- DBUF_BYTES = 256 and the example V4_KEY 00 01 .. 13 (95_test_vectors.md). -/
def exampleConfig : Config := ⟨256, Vector.ofFn fun i => BitVec.ofNat 8 i.val⟩

/-- The state right after reset with the example parameters. -/
def fresh : State := State.resetWith exampleConfig

/-- The bytes 0, 1, .., n - 1. -/
def counting (n : Nat) : List Byte := (List.range n).map (BitVec.ofNat 8)

/-- 00 11 22 .. ff, the example plaintext. -/
def elevens : List Byte := (List.range 16).map fun i => BitVec.ofNat 8 (17 * i)

/-- The key 000102..0f in KEY0 .. KEY7, the IV 0f0e..00 in IV0 .. IV3 (R56), and the context of KEYEXP 4. -/
def withContext : State :=
  loadContext (keyExpand (quadsOfBytes (counting 16)) 4 false) false
    { fresh with
      key := #v[0x03020100, 0x07060504, 0x0b0a0908, 0x0f0e0d0c, 0, 0, 0, 0]
      iv := #v[0x0c0d0e0f, 0x08090a0b, 0x04050607, 0x00010203] }

/-- `l` in DBUF from offset `a`. -/
def fill (a : Nat) (l : List Byte) (s : State) : State := { s with dbuf := writeBytes s.dbuf a l }

/-- The command word `w` in flight with `n` cycles left. -/
def flying (n : Nat) (w : Word) (s : State) : State := { s with cmd := w, inflight := some n }

/-- The host does `op` in the coming cycle. -/
def doing (op : HostOp) (s : State) : State := { s with host := [op] }

/-- The result is a next state with the property. -/
def nextWith (r : Result) (p : State → Bool) : Bool :=
  match r with
  | .next t => p t
  | .fault _ => false
  | .refused _ => false

/-- DBUF[a ..) holds the bytes of `l`. -/
def holds (m : Memory) (a : Nat) : List Byte → Bool
  | [] => true
  | b :: rest => memGet m a == some b && holds m (a + 1) rest

/-! ### WellFormed: an ill-formed term for each check -/

theorem test_wellFormed_refuses_nk_16 : (Instr.keyexp false 16).wellFormed = false := by decide

theorem test_wellFormed_refuses_encb_65536 : (Instr.encb 65536).wellFormed = false := by decide

theorem test_wellFormed_refuses_decb_65536 : (Instr.decb 65536).wellFormed = false := by decide

theorem test_wellFormed_accepts_largest :
    (Instr.keyexp true 15).wellFormed && (Instr.encb 65535).wellFormed && (Instr.decb 65535).wellFormed
      && Instr.nop.wellFormed && (Instr.cbcenc true).wellFormed && (Instr.cbcdec false).wellFormed
      && Instr.mac.wellFormed = true := by decide

/-! ### Decode: words written field by field (R80): BIDX, [15:12], NK, [7:6], TWEAK, IVEN, OP -/

theorem test_decode_nop : decode (0x0000#16 ++ 0#4 ++ 0#4 ++ 0#2 ++ 0#1 ++ 0#1 ++ 0x0#4) = .instr .nop := by decide

theorem test_decode_keyexp_tweak_8 :
    decode (0x0000#16 ++ 0#4 ++ 8#4 ++ 0#2 ++ 1#1 ++ 0#1 ++ 0x1#4) = .instr (.keyexp true 8) := by decide

theorem test_decode_keyexp_5 :
    decode (0x0000#16 ++ 0#4 ++ 5#4 ++ 0#2 ++ 0#1 ++ 0#1 ++ 0x1#4) = .instr (.keyexp false 5) := by decide

theorem test_decode_encb_15 :
    decode (0x000F#16 ++ 0#4 ++ 0#4 ++ 0#2 ++ 0#1 ++ 0#1 ++ 0x2#4) = .instr (.encb 15) := by decide

theorem test_decode_decb_8001 :
    decode (0x8001#16 ++ 0#4 ++ 0#4 ++ 0#2 ++ 0#1 ++ 0#1 ++ 0x3#4) = .instr (.decb 0x8001) := by decide

theorem test_decode_cbcenc_iv :
    decode (0x0000#16 ++ 0#4 ++ 0#4 ++ 0#2 ++ 0#1 ++ 1#1 ++ 0x4#4) = .instr (.cbcenc true) := by decide

theorem test_decode_cbcdec :
    decode (0x0000#16 ++ 0#4 ++ 0#4 ++ 0#2 ++ 0#1 ++ 0#1 ++ 0x5#4) = .instr (.cbcdec false) := by decide

theorem test_decode_mac : decode (0x0000#16 ++ 0#4 ++ 0#4 ++ 0#2 ++ 0#1 ++ 0#1 ++ 0x6#4) = .instr .mac := by decide

/-- V-ENC-2: the illegal words. -/
theorem test_decode_illegal_words :
    ([0x7, 0x8, 0x9, 0xA, 0xB, 0xC, 0xD, 0xE, 0xF].all fun w : Word => decode w = .illegal .reservedOp) &&
    [0x16, 0x402, 0x416, 0x01000401, 0x11, 0x24, 0x40, 0x80000000].all fun w : Word => decode w = .illegal .unusedBit := by
  decide

/-- What the host asks of the table's rows: each row's match word decodes to its command. -/
theorem test_decodeTableWord :
    [0, 1, 2, 3, 4, 5, 6].map (decodeTableWord 32) =
      [some .nop, some (.keyexp false 0), some (.encb 0), some (.decb 0), some (.cbcenc false), some (.cbcdec false),
        some .mac] := by decide

/-- The first step after reset runs the word that `withFetchWord` places, whatever the platform's parameters are. -/
theorem test_withFetchWord_runs :
    ([0, 1, 2, 3, 4, 5, 6].all fun w => nextWith (step (State.reset.withFetchWord 32 w)) fun t => t.done && !busy t) = true := by
  decide +kernel

/-! ### One step of each command -/

/-- V-CTL-1. -/
theorem test_nop : nextWith (step (flying 1 0x00000000 withContext)) (fun t => statusWord t == 0x000A0006) = true := by
  decide +kernel

/-- V-REG-3: RK0, RK4, RK43, and the zero words after them; STATUS as P1 reads it. -/
theorem test_keyexp : nextWith (step (flying 1 0x00000401 { fresh with key := withContext.key })) (fun t =>
    t.rk[0] == 0x03020100 && t.rk[4] == 0xfd74aad6 && t.rk[43] == 0xc5302b4d && t.rk[44] == 0 && t.rk[59] == 0
      && statusWord t == 0x000A0006) = true := by
  decide +kernel

/-- V-KS-6: the tweaked words as the host reads them; RK17 is not tweaked. -/
theorem test_keyexp_tweak : nextWith (step (flying 1 0x00000421 { fresh with key := withContext.key })) (fun t =>
    t.rk[16] == 0xbcf7f734 && t.rk[24] == 0x7d0f3957 && t.rk[32] == 0x358743a3 && t.rk[17] == 0x033e3595
      && t.twk) = true := by
  decide +kernel

/-- V-FT-1, in the last block of DBUF. -/
theorem test_encb : nextWith (step (flying 1 0x000F0002 (fill 240 elevens withContext))) (fun t =>
    holds t.dbuf 240 [0x69, 0xc4, 0xe0, 0xd8, 0x6a, 0x7b, 0x04, 0x30, 0xd8, 0xcd, 0xb7, 0x80, 0x70, 0xb4, 0xc5, 0x5a]
      && statusWord t == 0x000A0006) = true := by
  decide +kernel

/-- V-ENC-3, P4: RANGE. -/
theorem test_encb_range : nextWith (step (flying 1 0x00100002 (fill 0 elevens withContext))) (fun t =>
    statusWord t == 0x000A0606 && holds t.dbuf 0 elevens) = true := by
  decide +kernel

/-- V-IT-2, first row. -/
theorem test_decb : nextWith (step (flying 1 0x00000003 (fill 0 elevens withContext))) (fun t =>
    holds t.dbuf 0 [0x76, 0x2a, 0x5a, 0xb5, 0x09, 0x29, 0x18, 0x9c, 0xef, 0xdb, 0x99, 0x43, 0x47, 0x90, 0xaa, 0xd8])
      = true := by
  decide +kernel

/-- V-ERR-1: NO_CONTEXT before RANGE. -/
theorem test_decb_priority : nextWith (step (flying 1 0xFFFF0003 fresh)) (fun t => statusWord t == 0x00000302) = true := by
  decide +kernel

/-- V-CBC-9: an IV, a whole block, a full pad block. -/
theorem test_cbcenc : nextWith (step (flying 1 0x00000014 (fill 0 elevens { withContext with len := 16 }))) (fun t =>
    t.len == 32 && holds t.dbuf 0
      [0x16, 0x62, 0x88, 0x46, 0xf7, 0x33, 0x48, 0x43, 0xbc, 0x73, 0x21, 0xcc, 0x79, 0x66, 0x16, 0x80,
        0x3c, 0x84, 0x96, 0x30, 0x0f, 0x84, 0x84, 0x3e, 0xa3, 0x56, 0x23, 0x04, 0x15, 0x51, 0xf4, 0xf3]) = true := by
  decide +kernel

/-- V-CBC-15: LEN + 16 is not wrapped. -/
theorem test_cbcenc_capacity : nextWith (step (flying 1 0x00000004 { withContext with len := 0xFFFFFFF8 })) (fun t =>
    statusWord t == 0x000A0206 && t.len == 0xFFFFFFF8) = true := by
  decide +kernel

/-- V-CBC-14. -/
theorem test_cbcdec : nextWith (step (flying 1 0x00000005 (fill 0 (counting 32) { withContext with len := 32 }))) (fun t =>
    t.len == 32 && holds t.dbuf 0
      [0x77, 0x57, 0xe3, 0x66, 0xe9, 0x63, 0x6e, 0x66, 0x9a, 0x16, 0x2d, 0x35, 0xf5, 0x2d, 0xbe, 0x19,
        0x69, 0x39, 0x0a, 0x83, 0x5a, 0x0a, 0x74, 0x1a, 0xe6, 0x47, 0xb8, 0x33, 0x08, 0x8e, 0xd8, 0xf3]) = true := by
  decide +kernel

/-- V-CBC-15: INVALID_LENGTH. -/
theorem test_cbcdec_length : nextWith (step (flying 1 0x00000005 { withContext with len := 5 })) (fun t =>
    statusWord t == 0x000A0406) = true := by
  decide +kernel

/-- V-MAC-4: a whole block gets a fresh padding block; TAG0 and TAG3 as the host reads them; no context needed. -/
theorem test_mac : nextWith (step (flying 1 0x00000006 (fill 0 (counting 16) { fresh with len := 16 }))) (fun t =>
    t.tag[0] == 0xbe3d9cd6 && t.tag[3] == 0x30e0471a && t.len == 16
      && holds t.dbuf 16 (0x80 :: List.replicate 15 0) && statusWord t == 0x00000002) = true := by
  decide +kernel

/-- V-MAC-1: the empty message. -/
theorem test_mac_empty : nextWith (step (flying 1 0x00000006 fresh)) (fun t =>
    blockBytes (unpackBlock t.tag) ==
      [0x62, 0x1a, 0xfb, 0x17, 0xb6, 0x0c, 0x6f, 0x09, 0xdb, 0x76, 0x98, 0x3c, 0xf4, 0x24, 0xe4, 0x1d]) = true := by
  decide +kernel

/-- V-ERR-1: an illegal word. -/
theorem test_illegal : nextWith (step (flying 1 0x00000402 fresh)) (fun t => statusWord t == 0x00000502) = true := by
  decide +kernel

/-- Log 6: a command that reads a byte not written since reset stops, and names the byte. -/
theorem test_unwritten_faults : step (flying 1 0x00000002 (fill 0 (counting 5) withContext)) = .fault (.dbufUnwritten 5) := rfl

/-! ### The host port -/

/-- V-REG-1: what some addresses read right after reset. -/
theorem test_reset_reads :
    ([(0x000, 0x41455343), (0x004, 0), (0x008, 0), (0x00C, 0), (0x010, 0), (0x014, 0x100), (0x03C, 0), (0x04C, 0), (0x05C, 0),
      (0x1EC, 0), (0x018, 0), (0x060, 0), (0x1F0, 0), (0x1100, 0)].all fun (a, v) =>
      nextWith (step (doing (HostOp.rd a) fresh)) fun t => t.rdata == some v) = true := by
  decide +kernel

/-- V-REG-4: the window's packing, by a read. -/
theorem test_window_read : nextWith (step (doing (HostOp.rd 0x1004) (fill 4 [0x6a, 0x7b, 0x04, 0x30] fresh)))
    (fun t => t.rdata == some 0x30047b6a) = true := by
  decide +kernel

/-- P1: the window's packing, by a write. -/
theorem test_window_write : nextWith (step (doing (HostOp.wr 0x1008 0xbbaa9988) fresh))
    (fun t => t.dbuf == [(8, 0x88), (9, 0x99), (10, 0xaa), (11, 0xbb)]) = true := by
  decide +kernel

/-- V-REG-5: W1C of DONE. -/
theorem test_status_w1c : nextWith (step (doing (HostOp.wr 0x008 0x00000002) { withContext with done := true }))
    (fun t => statusWord t == 0x000A0004) = true := by
  decide +kernel

/-- V-REG-6: a write of LEN while BUSY = 1 is dropped and sets OVR. -/
theorem test_busy_write : nextWith (step (doing (HostOp.wr 0x010 5) (flying 2 0 fresh)))
    (fun t => t.len == 0 && t.ovr && busy t) = true := by
  decide +kernel

/-- V-CTL-2: the acceptance of NOP after an error. -/
theorem test_accept : nextWith (step (doing (HostOp.wr 0x00C 0) { withContext with done := true, err := .invalidKeyLength }))
    (fun t => statusWord t == 0x000A0005) = true := by
  decide +kernel

/-- V-CTL-3: `irq`. -/
theorem test_irq : irq { fresh with done := true, ie := true } = true ∧ irq { fresh with done := true } = false ∧
    irq (writeStatus 2 { fresh with done := true, ie := true }) = false := by decide

/-- P5: a read in the completion's cycle sees the command's results (R221). -/
theorem test_completion_first : nextWith (step (doing (HostOp.rd 0x008) (flying 1 0 { withContext with ovr := true })))
    (fun t => t.rdata == some 0x000A000E) = true := by
  decide +kernel

/-! ### Witnesses: concrete states and operands that meet the hypotheses of each obligation, clause by clause -/

/-- DBUF_BYTES at its least and its greatest. -/
def leastConfig : Config := { exampleConfig with dbufBytes := 32 }

def greatestConfig : Config := { exampleConfig with dbufBytes := 0xF000 }

/-- `s` is the state after the core's part of the cycle in which the host does `op`: nothing is in flight. -/
theorem core_idle (op : HostOp) (s : State) (h : s.inflight = none) :
    coreCycle (beginCycle (doing op s)) = .next { s with host := [], rdata := none } := by
  rw [coreCycle_of_idle (by exact h)]; rfl

/-- The same with a command that has more than one cycle left. -/
theorem core_waiting (op : HostOp) (n : Nat) (w : Word) (s : State) :
    coreCycle (beginCycle (doing op (flying (n + 2) w s))) = .next { flying (n + 1) w s with host := [], rdata := none } := rfl

theorem witness_DecodeOfEncode : (Instr.keyexp true 15).wellFormed = true ∧ (Instr.encb 65535).wellFormed = true ∧
    (Instr.decb 0).wellFormed = true := by decide

theorem witness_EncodeOfDecode : decode 0xFFFF0003 = .instr (.decb 65535) ∧ decode 0x00000F21 = .instr (.keyexp true 15) := by
  decide

theorem witness_DecodeFollowsOpcodeMap :
    decode 0x00000F21 = .instr (.keyexp true 15) ∧
    (opcodeRow (.encb 0) ∈ opcodeTable ∧ (opcodeRow (.encb 0)).accepts 0xFFFF0002 = true) ∧
    (∀ r ∈ opcodeTable, r.accepts 0x00000007 = false) ∧ (∀ r ∈ opcodeTable, r.accepts 0x80000000 = false) := by decide

theorem witness_AssemblerSyntax : (15 < 16 ∧ 65535 < 65536) ∧
    ∃ s u, coreCycle (beginCycle s) = .next u ∧ hostOp s = .poll :=
  ⟨by decide, doing .poll fresh, _, core_idle _ _ rfl, rfl⟩

/-- Latency over, a command in CMD, and each kind of host entry; no command in flight; the least latency that is not over. -/
theorem witness_StepRunsDecodedCommand :
    ((flying 0 6 fresh).inflight = some 0 ∧ decode (flying 0 6 fresh).cmd = .instr .mac ∧ hostOp (flying 0 6 fresh) = .idle) ∧
    ((flying 1 6 fresh).inflight = some 1 ∧ hostOp (doing (HostOp.rd 0x1000) (flying 1 6 fresh)) = HostOp.rd 0x1000) ∧
    hostOp (doing .poll (flying 1 6 fresh)) = .poll ∧
    (fresh.inflight = none ∧ hostOp fresh = .idle) ∧
    ((flying 2 6 fresh).inflight = some (0 + 2) ∧ hostOp (flying 2 6 fresh) = .idle) := by
  refine ⟨⟨rfl, by decide, rfl⟩, ⟨rfl, rfl⟩, rfl, ⟨rfl, rfl⟩, rfl, rfl⟩

theorem witness_IllegalWordsCompleteWithError : (flying 1 0x16 fresh).inflight = some 1 ∧
    (∀ r ∈ opcodeTable, r.accepts (flying 1 0x16 fresh).cmd = false) ∧ hostOp (flying 1 0x16 fresh) = .idle := by
  refine ⟨rfl, by decide, rfl⟩

theorem witness_AcceptanceOfCommands :
    (∃ s u, coreCycle (beginCycle s) = .next u ∧ hostOp s = .access (.wr (wordAddress 0x00C) 0xFFFFFFFF) ∧ busy u = false) ∧
    ∃ s u, coreCycle (beginCycle s) = .next u ∧ hostOp s = .access (.wr (wordAddress 0x00C) 0xFFFFFFFF) ∧ busy u = true :=
  ⟨⟨doing (HostOp.wr 0x00C 0xFFFFFFFF) fresh, _, core_idle _ _ rfl, rfl, rfl⟩,
    ⟨doing (HostOp.wr 0x00C 0xFFFFFFFF) (flying 2 6 fresh), _, core_waiting _ 0 _ _, rfl, rfl⟩⟩

theorem witness_CompletionAfterDrawnLatency : (flying 1 6 fresh).host = [] ∧ (flying 1 6 fresh).inflight = some (0 + 1) ∧
    (flying 9 6 fresh).inflight = some (8 + 1) := ⟨rfl, rfl, rfl⟩

theorem witness_NoEffectBeforeCompletion : ∃ s t, s.inflight = some (0 + 2) ∧ (∀ x, hostOp s ≠ .reset x) ∧ step s = .next t :=
  ⟨doing (HostOp.wr 0x008 2) (flying 2 6 fresh), _, rfl, fun _ => HostOp.noConfusion,
    (step_of_access (core_waiting _ 0 _ _) rfl).trans rfl⟩

/-- The least and the greatest capacity, and the ends of each range of addresses. -/
theorem witness_RegisterMap : leastConfig.Legal ∧ greatestConfig.Legal ∧ (4 * 7 < leastConfig.dbufBytes) ∧
    (4 * 15359 < greatestConfig.dbufBytes) ∧
    ∀ b ∈ [0x018, 0x01C, 0x060, 0x0FC, 0x1F0, 0xFFC, 0x1000 + leastConfig.dbufBytes, 0xFFFC],
      (0x018 ≤ b ∧ b ≤ 0x01C) ∨ (0x060 ≤ b ∧ b ≤ 0x0FC) ∨ (0x1F0 ≤ b ∧ b ≤ 0xFFC) ∨
        (0x1000 + leastConfig.dbufBytes ≤ b ∧ b ≤ 0xFFFC) := by decide

theorem witness_ReservedAndReadOnly :
    regAt exampleConfig (wordAddress 0x1100) = .reserved ∧ regAt exampleConfig (wordAddress 0x000) = .id ∧
    regAt exampleConfig (wordAddress 0x014) = .dbufsz ∧ regAt exampleConfig (wordAddress 0x05C) = .tag 3 ∧
    regAt exampleConfig (wordAddress 0x1EC) = .rk 59 ∧
    ∀ op, ∃ u, coreCycle (beginCycle (doing op fresh)) = .next u ∧ u.cfg = exampleConfig ∧ hostOp (doing op fresh) = op :=
  ⟨by decide, by decide, by decide, by decide, by decide, fun op => ⟨_, core_idle op _ rfl, rfl, rfl⟩⟩

/-- The clauses of `RegisterWrites` and `RegisterReads`: a register each, with nothing in flight. -/
theorem witness_RegisterWrites_RegisterReads :
    regAt exampleConfig (wordAddress 0x004) = .ctrl ∧
    regAt exampleConfig (wordAddress 0x010) = .len ∧ regAt exampleConfig (wordAddress 0x020) = .key 0 ∧
    regAt exampleConfig (wordAddress 0x03C) = .key 7 ∧ regAt exampleConfig (wordAddress 0x040) = .iv 0 ∧
    regAt exampleConfig (wordAddress 0x04C) = .iv 3 ∧ regAt exampleConfig (wordAddress 0x000) = .id ∧
    regAt exampleConfig (wordAddress 0x008) = .status ∧ regAt exampleConfig (wordAddress 0x00C) = .cmd ∧
    regAt exampleConfig (wordAddress 0x014) = .dbufsz ∧ regAt exampleConfig (wordAddress 0x050) = .tag 0 ∧
    regAt exampleConfig (wordAddress 0x100) = .rk 0 ∧
    ∀ op, ∃ u, coreCycle (beginCycle (doing op fresh)) = .next u ∧ u.cfg = exampleConfig ∧ hostOp (doing op fresh) = op ∧
      busy u = false :=
  ⟨by decide, by decide, by decide, by decide, by decide, by decide, by decide, by decide, by decide, by decide, by decide, by decide,
    fun op => ⟨_, core_idle op _ rfl, rfl, rfl, rfl⟩⟩

/-- The last word of the window. -/
theorem witness_DbufWindow : exampleConfig.Legal ∧ 4 * 63 < exampleConfig.dbufBytes ∧
    (∀ j < 4, memGet (fill 252 [1, 2, 3, 4] fresh).dbuf (4 * 63 + j) = some (BitVec.ofNat 8 (j + 1))) ∧
    ∀ op, ∃ u, coreCycle (beginCycle (doing op (fill 252 [1, 2, 3, 4] fresh))) = .next u ∧ u.cfg = exampleConfig ∧
      busy u = false ∧ u.dbuf = (fill 252 [1, 2, 3, 4] fresh).dbuf :=
  ⟨by decide, by decide, by decide, fun op => ⟨_, core_idle op _ rfl, rfl, rfl, rfl⟩⟩

/-- The clauses of `BusyDiscipline` and `BusyReads`: a command in flight beyond this cycle, any host entry. -/
theorem witness_BusyDiscipline_BusyReads :
    ∀ op, ∃ s u, coreCycle (beginCycle s) = .next u ∧ busy u = true ∧ hostOp s = op ∧ u.cfg = exampleConfig :=
  fun op => ⟨doing op (flying 2 6 fresh), _, core_waiting op 0 _ _, rfl, rfl, rfl⟩

theorem witness_ControlWritesAtAnyTime :
    (∃ s u, coreCycle (beginCycle s) = .next u ∧ hostOp s = HostOp.wr 0x004 1) ∧
    ∃ s u, coreCycle (beginCycle s) = .next u ∧ hostOp s = HostOp.wr 0x008 0xFFFFFFFF ∧ InflightOk u ∧ busy u = true := by
  refine ⟨⟨doing (HostOp.wr 0x004 1) fresh, _, core_idle _ _ rfl, rfl⟩,
    ⟨doing (HostOp.wr 0x008 0xFFFFFFFF) (flying 2 6 fresh), _, core_waiting _ 0 _ _, rfl, ?_, rfl⟩⟩
  intro n h
  cases h
  exact ⟨by decide, rfl, rfl⟩

theorem witness_IrqLevel : (∃ t, completeCommand (flying 1 0 { fresh with ie := true }) = .next t) ∧
    (0x00000002 : Word).getLsbD 1 = true := ⟨⟨_, rfl⟩, by decide⟩

theorem witness_CompletionBeforeAccess :
    (∀ op, ∃ u, (doing op (flying 1 0 fresh)).inflight = some 1 ∧
      completeCommand (beginCycle (doing op (flying 1 0 fresh))) = .next u ∧ hostOp (doing op (flying 1 0 fresh)) = op) ∧
    hostOp (doing (.reset (some (.rd 0))) (flying 1 0 fresh)) = .reset (some (.rd 0)) :=
  ⟨fun op => ⟨completeWith .none (beginCycle (doing op (flying 1 0 fresh))), rfl, by
      rw [completeCommand, show decode (beginCycle (doing op (flying 1 0 fresh))).cmd = .instr .nop from
        (by decide : decode 0 = .instr .nop)]
      rfl, rfl⟩, rfl⟩

theorem witness_ResetValues : ∀ x, hostOp (doing (.reset x) (flying 5 4 withContext)) = .reset x := fun _ => rfl

theorem witness_ResetSatisfiesInv : leastConfig.Legal ∧ greatestConfig.Legal := by decide

theorem inv_fresh : Inv fresh where
  legal := by decide
  context := ⟨fun _ => ⟨rfl, rfl, by decide⟩, fun h => by cases h⟩
  buffer := ⟨List.Pairwise.nil, fun c h => by cases h⟩
  inflight := fun n h => by cases h

theorem witness_StepKeepsInv : Inv fresh ∧ ∃ t, step (doing (HostOp.wr 0x1000 7) fresh) = .next t :=
  ⟨inv_fresh, ⟨_, (step_of_access (core_idle _ _ rfl) rfl).trans rfl⟩⟩

theorem witness_ParametersNeverChange : ∃ t, step fresh = .next t := ⟨_, rfl⟩

/-- A KEYEXP completes and the context changes; a NOP completes and it does not. -/
theorem witness_ContextWrittenOnlyByKeyexp :
    nextWith (step (flying 1 0x00000401 fresh)) (fun t => t.ctxv && !fresh.ctxv) = true ∧
    nextWith (step (flying 1 0x00000000 fresh)) (fun t => !t.ctxv) = true ∧ ∀ x, hostOp (flying 1 0x00000401 fresh) ≠ .reset x :=
  ⟨by decide +kernel, by decide +kernel, fun x h => by cases h⟩

theorem witness_TagWrittenOnlyByMac :
    nextWith (step (flying 1 0x00000006 fresh)) (fun t => t.tag != fresh.tag) = true ∧
    ∀ x, hostOp (flying 1 0x00000006 fresh) ≠ .reset x := ⟨by decide +kernel, fun x h => by cases h⟩

theorem witness_KeyAndIvWrittenOnlyByHost :
    nextWith (step (doing (HostOp.wr 0x03C 1) fresh)) (fun t => t.key != fresh.key) = true ∧
    nextWith (step (doing (HostOp.wr 0x04C 1) fresh)) (fun t => t.iv != fresh.iv) = true ∧
    ∀ x, hostOp (doing (HostOp.wr 0x03C 1) fresh) ≠ .reset x :=
  ⟨by decide +kernel, by decide +kernel, fun x h => by cases h⟩

theorem witness_OverrunIsSticky :
    nextWith (step (doing (HostOp.wr 0x008 8) { fresh with ovr := true })) (fun t => !t.ovr) = true ∧
    ∀ x, hostOp (doing (HostOp.wr 0x008 8) { fresh with ovr := true }) ≠ .reset x :=
  ⟨by decide +kernel, fun x h => by cases h⟩

theorem witness_StepStopsOnlyOnUnwrittenByte : fresh.cfg.Legal ∧
    step (doing (HostOp.rd 0x10FC) fresh) = .fault (.dbufUnwritten 252) := ⟨by decide, rfl⟩

theorem witness_FailedCommandTouchesNothing :
    nextWith (completeCommand (flying 1 0x00000701 fresh)) (fun t => t.err != .none) = true := by decide +kernel

/-- Two checks violated, and none. -/
theorem witness_ErrorPriority :
    firstViolation (commandChecks (flying 1 0x00000005 { fresh with len := 5 })) = some .noContext ∧
    firstViolation (commandChecks (flying 1 0x00000006 { fresh with len := 240 })) = none ∧
    nextWith (completeCommand (flying 1 0x00000006 fresh)) (fun _ => true) = true := by decide +kernel

/-- Every command completes in some state. -/
theorem witness_CommandFrames :
    (nextWith (exec .nop fresh) (fun _ => true) && nextWith (exec (.keyexp true 8) fresh) (fun _ => true)
      && nextWith (exec (.encb 15) (fill 240 elevens withContext)) (fun t => t.err == .none)
      && nextWith (exec (.decb 0) (fill 0 elevens withContext)) (fun t => t.err == .none)
      && nextWith (exec (.cbcenc true) withContext) (fun t => t.err == .none)
      && nextWith (exec (.cbcdec true) (fill 0 elevens { withContext with len := 16 })) (fun t => t.err == .none)
      && nextWith (exec .mac fresh) (fun t => t.err == .none)) = true := by
  decide +kernel

theorem witness_KeyexpBuildsContext : supportedNk 4 ∧ supportedNk 5 ∧ supportedNk 6 ∧ supportedNk 8 := by decide

theorem witness_KeyLengthCheck : (∀ nk ∈ [0, 3, 7, 9, 15], nk ∉ [4, 5, 6, 8]) ∧ ∀ nk ∈ [4, 5, 6, 8], nk ∈ [4, 5, 6, 8] := by
  decide

/-- The key lengths with the least and the greatest Nk, for `KeyScheduleRecurrence` and `TweakChangesThreeBytes`. -/
theorem witness_KeySchedule : (supportedNk 4 ∧ (quadsOfBytes (counting 16)).length = 4) ∧
    (supportedNk 8 ∧ (quadsOfBytes (counting 32)).length = 8) := by decide

/-- Two images that agree on the round keys and differ beyond them. -/
theorem witness_TransformsReadOnlyRoundKeys : ∃ k k' : RoundKeys, k ≠ k' ∧
    ∀ i < 16 * (10 + 1), imageByte k i = imageByte k' i :=
  ⟨List.replicate 60 quadZero, List.replicate 59 quadZero ++ [⟨1, 0, 0, 0⟩], by decide, by decide +kernel⟩

/-- The last block of DBUF, for `EncbEncryptsBlock` and `DecbDecryptsBlock`. -/
theorem witness_BlockTransforms : withContext.ctxv = true ∧ 16 * 15 + 16 ≤ withContext.cfg.dbufBytes ∧
    Written (fill 240 elevens withContext).dbuf (16 * 15) 16 := by
  refine ⟨rfl, by decide, ?_⟩
  unfold Written; decide

theorem witness_ContextAndRangeChecks : fresh.ctxv = false ∧ withContext.ctxv = true ∧
    16 * 16 + 16 > withContext.cfg.dbufBytes ∧ nextWith (exec .mac fresh) (fun _ => true) = true :=
  ⟨rfl, rfl, by decide, by decide +kernel⟩

/-- LEN on both sides of each bound: 240 and 241 for CBCENC and MAC; 0, 5, 256 and 272 for CBCDEC. -/
theorem witness_CapacityAndLengthChecks :
    let at_ := fun n : Nat => { withContext with len := BitVec.ofNat 32 n }
    ((at_ 241).len.toNat + 16 > (at_ 241).cfg.dbufBytes ∧ (at_ 240).len.toNat + 16 ≤ (at_ 240).cfg.dbufBytes) ∧
    ((at_ 0).len.toNat = 0 ∧ (at_ 5).len.toNat % 16 ≠ 0) ∧
    ((at_ 272).len.toNat ≠ 0 ∧ (at_ 272).len.toNat % 16 = 0 ∧ (at_ 272).len.toNat > (at_ 272).cfg.dbufBytes) ∧
    ((at_ 256).len.toNat ≠ 0 ∧ (at_ 256).len.toNat % 16 = 0 ∧ (at_ 256).len.toNat ≤ (at_ 256).cfg.dbufBytes) := by
  decide

/-- The empty message, and one of 240 bytes, which fills DBUF with its pad: for `CbcencEncryptsPaddedMessage`, `CbcRoundTrip`
and `MacComputesTag`. -/
theorem witness_PaddedMessages :
    (withContext.cfg.Legal ∧ withContext.ctxv = true ∧ withContext.len.toNat + 16 ≤ withContext.cfg.dbufBytes ∧
      Written withContext.dbuf 0 withContext.len.toNat) ∧
    ((240 : Word).toNat + 16 ≤ withContext.cfg.dbufBytes ∧ Written (fill 0 (counting 240) withContext).dbuf 0 (240 : Word).toNat) := by
  refine ⟨⟨by decide, rfl, by decide, ?_⟩, by decide, ?_⟩
  · intro j hj; simp [withContext, fresh, State.resetWith] at hj
  · intro j hj
    have hj' : j < 240 := hj
    rw [fill, memGet_writeBytes, if_pos (by simp [counting]; omega), List.getElem?_eq_getElem (by simp [counting]; omega)]
    rfl

theorem witness_CbcdecDecryptsBlocks : withContext.ctxv = true ∧ (16 : Word).toNat ≠ 0 ∧ (16 : Word).toNat % 16 = 0 ∧
    (16 : Word).toNat ≤ withContext.cfg.dbufBytes ∧ Written (fill 0 elevens withContext).dbuf 0 (16 : Word).toNat := by
  refine ⟨rfl, by decide, by decide, by decide, ?_⟩
  unfold Written; decide

theorem witness_ZeroIvIsNoIv : ∀ k : Fin 4, fresh.iv[k] = 0 := by decide

/-- Two states that agree on V4_KEY, LEN and the message and differ in DBUF beyond it and in KEY. -/
theorem witness_MacDeterminism :
    fresh.cfg.v4Key = withContext.cfg.v4Key ∧ fresh.len = (fill 0 elevens withContext).len ∧
    (∀ i < fresh.len.toNat, memGet fresh.dbuf i = memGet (fill 0 elevens withContext).dbuf i) ∧
    nextWith (exec .mac fresh) (fun t => t.err == .none) = true ∧
    nextWith (exec .mac (fill 0 elevens withContext)) (fun t => t.err == .none) = true :=
  ⟨rfl, rfl, fun i h => absurd h (Nat.not_lt_zero i), by decide +kernel, by decide +kernel⟩

/-- The last index of each range, for `BytewiseStages`, `ColumnMixing`, `RoundConstants` and `RegisterByteImages`. -/
theorem witness_IndexBounds : 15 < 16 ∧ 3 < 4 ∧ 1 ≤ 1 ∧ 7 < 8 ∧ 59 < 60 := by decide

theorem witness_MacIndependentOfContext : nextWith (exec .mac fresh) (fun _ => true) = true := by decide +kernel

end Sys2Proof.Machine.Tests
end

/-! The invariant of the machine: it holds right after reset, and each part of a cycle keeps it (00_scope.md R11, 10_state.md
R24, R32, R34, 20_memory.md R58, 41_key_schedule.md R137, 45_control.md R201). -/

namespace Sys2Proof.Machine

/-! ### The parts of the invariant -/

theorem inflightOk_of_none {s : State} (h : s.inflight = none) : InflightOk s := by
  intro n hn
  rw [h] at hn
  cases hn

/-- Acceptance leaves at least one cycle and clears DONE and ERR (00_scope.md R13, 45_control.md R201). -/
theorem inflightOk_acceptCommand (w : Word) (s : State) : InflightOk (acceptCommand w s) := by
  intro n hn
  obtain rfl : drawLatency w s = n := Option.some.inj hn
  exact ⟨one_le_drawLatency w s, rfl, rfl⟩

/-- A write to STATUS can only clear DONE, so it keeps DONE = 0 in flight. -/
theorem InflightOk.writeStatus {s : State} (h : InflightOk s) (v : Word) : InflightOk (writeStatus v s) := by
  intro n hn
  obtain ⟨hpos, hdone, herr⟩ := h n hn
  exact ⟨hpos, by simp [hdone], herr⟩

/-- One cycle counted, with at least one left. -/
theorem InflightOk.countCycle {s : State} {n : Nat} (h : InflightOk s) (hn : s.inflight = some (n + 2)) :
    InflightOk { s with inflight := some (n + 1) } := by
  obtain ⟨-, hdone, herr⟩ := h _ hn
  intro m hm
  obtain rfl : n + 1 = m := Option.some.inj hm
  exact ⟨Nat.le_add_left 1 n, hdone, herr⟩

theorem BufferOk.of_keepsBuffer {s t : State} (h : BufferOk s) (hcfg : t.cfg = s.cfg)
    (hk : KeepsBuffer s.dbuf t.dbuf 0 s.cfg.dbufBytes) : BufferOk t := by
  obtain ⟨hwf, hwithin⟩ := h
  refine ⟨hk.wf hwf, ?_⟩
  rw [hcfg]
  exact hk.within _ (by omega) hwithin

/-- The write of one window word keeps DBUF canonical and inside its capacity (20_memory.md R57, R58). -/
theorem BufferOk.writeQuad {s : State} {a : Nat} (h : BufferOk s) (ha : a + 4 ≤ s.cfg.dbufBytes) (q : Quad) :
    BufferOk { s with dbuf := writeQuad s.dbuf a q } :=
  h.of_keepsBuffer rfl ((keepsBuffer_writeBytes s.dbuf a _).widen (Nat.zero_le a) (by simpa using ha))

theorem keyQuads_length (s : State) : (keyQuads s).length = 8 := by simp [keyQuads]

/-- The context after a command's effect: that of KEYEXP, or the one before (10_state.md R32). -/
theorem Effect.contextOk {i : Instr} {s u : State} (he : Effect i s u) (h : ContextOk s) : ContextOk u := by
  by_cases hi : ∃ tweak nk, i = .keyexp tweak nk
  · obtain ⟨tweak, nk, rfl⟩ := hi
    obtain ⟨hs, rfl⟩ := he
    have hnk : nk ≤ ((keyQuads s).take nk).length := by
      rw [List.length_take, keyQuads_length, Nat.min_eq_left (supportedNk_bounds hs).2]
    exact contextOk_loadContext tweak hnk hs s
  · obtain ⟨hrk, hnr, htwk, hctxv⟩ := he.context fun tweak nk e => hi ⟨tweak, nk, e⟩
    exact h.congr hctxv hnr htwk hrk

/-! ### The invariant as a whole -/

/-- The fields the invariant speaks of, beside those of the command in flight. -/
def guardedFields (s : State) : Config × Bool × BitVec 4 × Bool × Vector Word 60 × Memory :=
  (s.cfg, s.ctxv, s.nr, s.twk, s.rk, s.dbuf)

/-- An update that leaves the parameters, the context and DBUF alone has only the command in flight to answer for. -/
theorem Inv.of_guardedFields {s t : State} (h : Inv s) (hkept : guardedFields t = guardedFields s) (hfl : InflightOk t) :
    Inv t := by
  simp only [guardedFields, Prod.mk.injEq] at hkept
  obtain ⟨hcfg, hctxv, hnr, htwk, hrk, hdbuf⟩ := hkept
  exact {
    legal := hcfg ▸ h.legal
    context := h.context.congr hctxv hnr htwk hrk
    buffer := h.buffer.congr hdbuf hcfg
    inflight := hfl }

theorem inv_resetWith {c : Config} (hc : c.Legal) : Inv (State.resetWith c) where
  legal := hc
  context := ⟨fun _ => ⟨rfl, rfl, fun k => by simp [State.resetWith]⟩, fun h => by cases h⟩
  buffer := ⟨List.Pairwise.nil, fun _ h => by cases h⟩
  inflight := inflightOk_of_none rfl

/-- The free capacity of the platform stays inside R11's bounds. -/
theorem legal_platform : Config.platform.Legal := by
  have hlt : Config.freeBlocks % 3839 < 3839 := Nat.mod_lt _ (by decide)
  simp only [Config.Legal, Config.platform]
  omega

/-- Settles O23: at reset there is no context, no byte of DBUF and no command in flight. -/
theorem resetSatisfiesInv : Obligations.ResetSatisfiesInv :=
  ⟨inv_resetWith legal_platform, fun _ hc => inv_resetWith hc⟩

/-! ### What each part of a cycle keeps -/

theorem Inv.beginCycle {s : State} (h : Inv s) : Inv (beginCycle s) :=
  h.of_guardedFields rfl h.inflight

/-- A reset cycle satisfies the invariant whatever the access is: only the model's `host`, `draws` and `rdata` differ from
the reset state. -/
theorem Inv.resetCycle {s : State} (h : Inv s) (x : Option Access) : Inv (resetCycle x s) := by
  have hreset := inv_resetWith h.legal
  rcases x with - | ⟨a⟩ | ⟨a, v⟩
  all_goals exact hreset.of_guardedFields rfl (inflightOk_of_none rfl)

/-- A completion keeps the invariant: a failed command changes no part of it, and an effect keeps each part. -/
theorem Inv.completeCommand {s t : State} (h : Inv s) (ht : completeCommand s = .next t) : Inv t := by
  rcases completeCommand_eq_next ht with ⟨e, -, rfl⟩ | ⟨i, u, -, rfl, he⟩
  · exact h.of_guardedFields rfl (inflightOk_of_none rfl)
  · have hcfg : u.cfg = s.cfg := he.kept.1
    exact {
      legal := hcfg ▸ h.legal
      context := he.contextOk h.context
      buffer := h.buffer.of_keepsBuffer hcfg he.dbuf
      inflight := inflightOk_of_none rfl }

theorem Inv.coreCycle {s u : State} (h : Inv s) (hu : coreCycle s = .next u) : Inv u := by
  rcases coreCycle_eq_next hu with ⟨-, rfl⟩ | ⟨n, hn, rfl⟩ | ⟨-, hc⟩
  · exact h
  · exact h.of_guardedFields rfl (h.inflight.countCycle hn)
  · exact h.completeCommand hc

theorem Inv.hostRead {u t : State} {a : BitVec 14} (h : Inv u) (ht : hostRead a u = .next t) : Inv t := by
  obtain ⟨v, d, rfl⟩ := hostRead_eq_next ht
  exact h.of_guardedFields rfl h.inflight

/-- Only three host writes touch a part of the invariant: STATUS (DONE), an accepted command, and a word of the DBUF window. -/
theorem Inv.hostWrite {u : State} (h : Inv u) (a : BitVec 14) (v : Word) : Inv (hostWrite a v u) := by
  rcases hostWrite_cases a v u with
    e | ⟨-, e⟩ | ⟨-, e⟩ | ⟨-, e⟩ | ⟨-, ⟨-, e⟩ | ⟨-, e⟩ | ⟨k, -, e⟩ | ⟨k, -, e⟩ | ⟨k, hk, e⟩⟩ <;> rw [e]
  · exact h
  · exact h.of_guardedFields rfl h.inflight
  · exact h.of_guardedFields rfl h.inflight
  · exact h.of_guardedFields rfl (h.inflight.writeStatus v)
  · exact h.of_guardedFields rfl (inflightOk_acceptCommand v u)
  · exact h.of_guardedFields rfl h.inflight
  · exact h.of_guardedFields rfl h.inflight
  · exact h.of_guardedFields rfl h.inflight
  · exact { legal := h.legal, context := h.context, inflight := h.inflight,
            buffer := h.buffer.writeQuad (window_lt h.legal hk) _ }

theorem Inv.pollStatus {u t : State} (h : Inv u) (ht : pollStatus u = .next t) : Inv t := by
  rw [pollStatus_eq] at ht
  obtain rfl := Host.Outcome.next.inj ht
  exact h.of_guardedFields rfl h.inflight

/-- Settles O24: a reset cycle establishes the invariant; in any other cycle the core's part keeps it, and then the host's
access does. -/
theorem stepKeepsInv : Obligations.StepKeepsInv := by
  intro s t h hstep
  rcases step_eq_next hstep with ⟨x, -, rfl⟩ | ⟨u, hcore, haccess⟩
  · exact h.beginCycle.resetCycle x
  · have hu : Inv u := h.beginCycle.coreCycle hcore
    rcases haccess with ⟨-, rfl⟩ | ⟨a, -, ht⟩ | ⟨a, v, -, rfl⟩ | ⟨-, ht⟩
    · exact hu
    · exact hu.hostRead ht
    · exact hu.hostWrite a v
    · exact hu.pollStatus ht

/-! ### The latency of a command with an idle host -/

theorem core_run_one (M : Host.Core) (s : M.State) : M.run 1 s = M.step s := by
  rw [Host.Core.run]
  cases M.step s <;> rfl

theorem core_run_succ_of_next {M : Host.Core} {s t : M.State} (h : M.step s = .next t) (k : Nat) :
    M.run (k + 1) s = M.run k t := by
  rw [Host.Core.run, h]

theorem hostOp_of_nil {s : State} (h : s.host = []) : hostOp s = .idle := by rw [hostOp, h]; rfl

theorem beginCycle_of_nil {s : State} (h : s.host = []) : beginCycle s = { s with rdata := none } := by
  rw [beginCycle, h, List.tail_nil, ← h]

/-- Settles O9, by induction on the cycles left: each cycle but the last counts one and empties the read-data port, and the
last is the completion (45_control.md R202). -/
theorem completionAfterDrawnLatency : Obligations.CompletionAfterDrawnLatency := by
  intro n
  induction n with
  | zero =>
    intro s hhost hleft
    have hdue : (beginCycle s).inflight = some 1 := hleft
    have hstep : step s = completeCommand { s with inflight := some 1, rdata := none } := by
      rw [step_of_idle (hostOp_of_nil hhost), coreCycle_of_due hdue le_rfl, beginCycle_of_nil hhost, ← hleft]
    exact (core_run_one Sys2Proof.core s).trans hstep
  | succ n ih =>
    intro s hhost hleft
    have hwait : (beginCycle s).inflight = some (n + 2) := hleft
    have hcount : step s = .next { s with inflight := some (n + 1), rdata := none } := by
      rw [step_of_idle (hostOp_of_nil hhost), coreCycle_of_waiting hwait, beginCycle_of_nil hhost]
    exact (core_run_succ_of_next (M := Sys2Proof.core) hcount (n + 1)).trans (ih _ hhost rfl)

end Sys2Proof.Machine

/-! The state family: what a step leaves unchanged short of reset, how it stops, what a register write and read do, and how the
host sees STATUS and the byte images (10_state.md R20 to R39, 20_memory.md R51 to R58, 45_control.md R202). -/

namespace Sys2Proof.Machine

/-! ### A step as the core's part and the host's part -/

theorem step_eq_andThen_of_access {s : State} {x : Access} (h : hostOp s = .access x) :
    step s = andThen (coreCycle (beginCycle s)) (hostAccess x) := by
  simp only [step, cycle, h]

theorem step_eq_andThen_of_poll {s : State} (h : hostOp s = .poll) :
    step s = andThen (coreCycle (beginCycle s)) pollStatus := by
  simp only [step, cycle, h]

theorem completeCommand_of_decode {s : State} {i : Instr} (h : decode s.cmd = .instr i) : completeCommand s = exec i s := by
  simp only [completeCommand, h]

/-- Settles O6: the core's part of a cycle is the command when it is due, one cycle counted before that, and nothing when no
command is in flight. -/
theorem stepRunsDecodedCommand : Obligations.StepRunsDecodedCommand := by
  refine ⟨fun s n i hfl hn hdec => ?_, fun s hfl => ?_, fun s n hfl => ?_⟩
  · have hcore : coreCycle (beginCycle s) = exec i (beginCycle s) :=
      (coreCycle_of_due (s := beginCycle s) hfl hn).trans (completeCommand_of_decode hdec)
    refine ⟨fun hop => ?_, fun x hop => ?_, fun hop => ?_⟩
    · rw [step_of_idle hop, hcore]
    · rw [step_eq_andThen_of_access hop, hcore]
    · rw [step_eq_andThen_of_poll hop, hcore]
  · have hcore : coreCycle (beginCycle s) = .next (beginCycle s) := coreCycle_of_idle hfl
    exact ⟨hcore, fun hop => (step_of_idle hop).trans hcore⟩
  · have hcore := coreCycle_of_waiting (s := beginCycle s) hfl
    exact ⟨hcore, fun hop => (step_of_idle hop).trans hcore⟩

/-! ### Register writes and reads while BUSY = 0 -/

section RegisterAccess

variable {s u : State} {a : BitVec 14} {v : Word}

theorem step_of_write (hcore : coreCycle (beginCycle s) = .next u) (hop : hostOp s = .access (.wr a v)) :
    step s = .next (hostWrite a v u) :=
  step_of_access hcore hop

theorem hostWrite_of_len (hb : busy u = false) (hr : regAt u.cfg a = .len) : hostWrite a v u = { u with len := v } := by
  simp [hostWrite, hr, writeReg, unlessBusy, hb]

theorem hostWrite_of_key {k : Fin 8} (hb : busy u = false) (hr : regAt u.cfg a = .key k) :
    hostWrite a v u = { u with key := u.key.set k v } := by
  simp [hostWrite, hr, writeReg, unlessBusy, hb]

theorem hostWrite_of_iv {k : Fin 4} (hb : busy u = false) (hr : regAt u.cfg a = .iv k) :
    hostWrite a v u = { u with iv := u.iv.set k v } := by
  simp [hostWrite, hr, writeReg, unlessBusy, hb]

/-- A write to one register of a group: that register holds the word, the others are as before. -/
theorem registerGroup_set {n : Nat} (g : Vector Word n) (k : Fin n) (v : Word) :
    (g.set k v)[k] = v ∧ ∀ j : Fin n, j ≠ k → (g.set k v)[j] = g[j] :=
  ⟨Vector.getElem_set_self k.isLt, fun j hj => Vector.getElem_set_ne k.isLt j.isLt fun e => hj (Fin.ext e.symm)⟩

/-- A host read that is answered with the value of what it selects. -/
theorem step_of_read {v : Word} (hcore : coreCycle (beginCycle s) = .next u) (hop : hostOp s = .access (.rd a))
    (hb : busy u = false) (hv : readReg u (regAt u.cfg a) = .ok v) : step s = .next { u with rdata := some v } := by
  rw [step_of_access hcore hop]
  simp [hostAccess, hostRead, hb, hv]

end RegisterAccess

/-- CTRL as the host reads it: bit 0 is IE and the rest is 0 (10_state.md R23). -/
theorem readReg_ctrl (u : State) : readReg u .ctrl = .ok (if u.ie then 1 else 0) := by
  cases h : u.ie <;> simp [readReg, h]

/-- Settles O13: each write stores the word in the one register it selects. -/
theorem registerWrites : Obligations.RegisterWrites := by
  intro s u a v hcore hop hb
  have hstep := step_of_write hcore hop
  refine ⟨fun hr => ?_, fun k hr => ?_, fun k hr => ?_⟩
  · rw [hstep, hostWrite_of_len hb hr]
  · rw [hostWrite_of_key hb hr] at hstep
    exact ⟨_, hstep, rfl, registerGroup_set u.key k v⟩
  · rw [hostWrite_of_iv hb hr] at hstep
    exact ⟨_, hstep, rfl, registerGroup_set u.iv k v⟩

/-- Settles O14: each read is answered with the current value of the register it selects. -/
theorem registerReads : Obligations.RegisterReads := by
  intro s u a hcore hop hb
  have hread : ∀ {r : Reg} {v : Word}, readReg u r = .ok v → regAt u.cfg a = r →
      step s = .next { u with rdata := some v } := fun hv hr => step_of_read hcore hop hb (hr ▸ hv)
  exact ⟨hread rfl, hread (readReg_ctrl u), hread rfl, hread rfl, hread rfl, hread rfl,
    fun _ => hread rfl, fun _ => hread rfl, fun _ => hread rfl, fun _ => hread rfl⟩

/-! ### STATUS and the byte images -/

/-- STATUS.ERR in the word the host reads (10_state.md R24). -/
theorem statusWord_err (s : State) : (statusWord s).extractLsb' 8 4 = errBits s.err := by
  apply BitVec.eq_of_getLsbD_eq
  intro i hi
  rw [BitVec.getLsbD_extractLsb', statusWord_bit]
  interval_cases i <;> simp

/-- STATUS.NR in the word the host reads (10_state.md R24). -/
theorem statusWord_nr (s : State) : (statusWord s).extractLsb' 16 4 = s.nr := by
  apply BitVec.eq_of_getLsbD_eq
  intro i hi
  rw [BitVec.getLsbD_extractLsb', statusWord_bit]
  interval_cases i <;> simp

/-- Settles O18: the one-bit fields by `statusWord_bit`, the others bit by bit. -/
theorem statusLayout : Obligations.StatusLayout := by
  intro s
  refine ⟨statusWord_bit s 0, statusWord_bit s 1, statusWord_bit s 2, statusWord_bit s 3, statusWord_bit s 4,
    statusWord_nr s, ?_⟩
  rw [statusWord_err]
  cases s.err <;> rfl

/-- The byte image of a block held in four registers (10_state.md R30). -/
theorem blockByte_unpackBlock (w : Vector Word 4) {k j : Nat} (hk : k < 4) (hj : j < 4) :
    blockByte (unpackBlock w) (4 * k + j) = (w[k]).extractLsb' (8 * j) 8 := by
  have hcol : blockByte (unpackBlock w) (4 * k + j) = quadByte (unpackWord w[k]) j := by
    interval_cases k <;> interval_cases j <;> rfl
  rw [hcol, unpackWord_byte _ j hj]

/-- Entry `k` of the image of a register group is what register `k` holds. -/
theorem getD_map_unpackWord {n : Nat} (g : Vector Word n) {k : Nat} (hk : k < n) :
    (g.toList.map unpackWord).getD k quadZero = unpackWord g[k] := by
  simp [hk]

/-- Settles O60: each image unpacks its registers in order, and unpacking a word takes its bytes in order. -/
theorem registerByteImages : Obligations.RegisterByteImages := by
  refine ⟨fun s k j hj => ⟨fun hk => ?_, fun hk => ?_, fun hk => ?_, fun hk => ?_⟩, unpackBlock_packBlock, by decide⟩
  · rw [keyQuads, getD_map_unpackWord s.key hk, unpackWord_byte _ j hj]
  · exact blockByte_unpackBlock s.iv hk hj
  · exact blockByte_unpackBlock s.tag hk hj
  · have hdiv : (4 * k + j) / 4 = k := by omega
    have hmod : (4 * k + j) % 4 = j := by omega
    rw [imageByte, hdiv, hmod, contextKeys, getD_map_unpackWord s.rk hk, unpackWord_byte _ j hj]

/-! ### What the host's part of a cycle leaves unchanged -/

/-- The fields no host access writes: the parameters, the context and TAG (10_state.md R31, R32, R38). -/
def hostKeptFields (s : State) : Config × Vector Word 60 × BitVec 4 × Bool × Bool × Vector Word 4 :=
  (s.cfg, s.rk, s.nr, s.twk, s.ctxv, s.tag)

theorem hostKeptFields_hostWrite (a : BitVec 14) (v : Word) (u : State) :
    hostKeptFields (hostWrite a v u) = hostKeptFields u := by
  rcases hostWrite_cases a v u with
    e | ⟨-, e⟩ | ⟨-, e⟩ | ⟨-, e⟩ | ⟨-, ⟨-, e⟩ | ⟨-, e⟩ | ⟨k, -, e⟩ | ⟨k, -, e⟩ | ⟨k, -, e⟩⟩ <;> rw [e] <;> rfl

/-- KEY after a host write: as before, unless the write selects a KEY register while BUSY = 0 (10_state.md R28). -/
theorem hostWrite_key_cases (a : BitVec 14) (v : Word) (u : State) :
    (hostWrite a v u).key = u.key ∨ ((∃ k, regAt u.cfg a = .key k) ∧ busy u = false) := by
  rcases hostWrite_cases a v u with
    e | ⟨-, e⟩ | ⟨-, e⟩ | ⟨hr, e⟩ | ⟨hb, ⟨-, e⟩ | ⟨-, e⟩ | ⟨k, hk, e⟩ | ⟨k, hk, e⟩ | ⟨k, -, e⟩⟩ <;> simp [*]

/-- IV after a host write: as before, unless the write selects an IV register while BUSY = 0 (10_state.md R29). -/
theorem hostWrite_iv_cases (a : BitVec 14) (v : Word) (u : State) :
    (hostWrite a v u).iv = u.iv ∨ ((∃ k, regAt u.cfg a = .iv k) ∧ busy u = false) := by
  rcases hostWrite_cases a v u with
    e | ⟨-, e⟩ | ⟨-, e⟩ | ⟨hr, e⟩ | ⟨hb, ⟨-, e⟩ | ⟨-, e⟩ | ⟨k, hk, e⟩ | ⟨k, hk, e⟩ | ⟨k, -, e⟩⟩ <;> simp [*]

/-- OVR after a host write: as before, or set, or written through STATUS (10_state.md R24). -/
theorem hostWrite_ovr_cases (a : BitVec 14) (v : Word) (u : State) :
    (hostWrite a v u).ovr = u.ovr ∨ (hostWrite a v u).ovr = true ∨
      (regAt u.cfg a = .status ∧ (hostWrite a v u).ovr = (u.ovr && !v.getLsbD 3)) := by
  rcases hostWrite_cases a v u with
    e | ⟨-, e⟩ | ⟨-, e⟩ | ⟨hr, e⟩ | ⟨hb, ⟨-, e⟩ | ⟨-, e⟩ | ⟨k, hk, e⟩ | ⟨k, hk, e⟩ | ⟨k, -, e⟩⟩ <;> simp [*]

/-- A step without reset is the core's part, then either a host write or a change of no more than the read-data port, the
host's list and the count of free values. -/
theorem step_eq_next_without_reset {s t : State} (h : step s = .next t) (hrst : ∀ x, hostOp s ≠ .reset x) :
    ∃ u, coreCycle (beginCycle s) = .next u ∧
      ((∃ a v, hostOp s = .access (.wr a v) ∧ t = hostWrite a v u) ∨
        ∃ r l d, t = { u with rdata := r, host := l, draws := d }) := by
  rcases step_eq_next h with ⟨x, hx, -⟩ | ⟨u, hcore, haccess⟩
  · exact absurd hx (hrst x)
  · refine ⟨u, hcore, ?_⟩
    rcases haccess with ⟨-, rfl⟩ | ⟨a, -, ht⟩ | ⟨a, v, hop, ht⟩ | ⟨-, ht⟩
    · exact .inr ⟨_, _, _, rfl⟩
    · obtain ⟨v, d, rfl⟩ := hostRead_eq_next ht
      exact .inr ⟨_, _, _, rfl⟩
    · exact .inl ⟨a, v, hop, ht⟩
    · rw [pollStatus_eq] at ht
      exact .inr ⟨_, _, _, (Host.Outcome.next.inj ht).symm⟩

/-- Short of reset a step leaves `hostKeptFields` as the core's part does. -/
theorem step_hostKeptFields {s t : State} (h : step s = .next t) (hrst : ∀ x, hostOp s ≠ .reset x) :
    ∃ u, coreCycle (beginCycle s) = .next u ∧ hostKeptFields t = hostKeptFields u := by
  obtain ⟨u, hcore, ⟨a, v, -, rfl⟩ | ⟨r, l, d, rfl⟩⟩ := step_eq_next_without_reset h hrst
  · exact ⟨u, hcore, hostKeptFields_hostWrite a v u⟩
  · exact ⟨u, hcore, rfl⟩

/-- A field that the core's part and all but host writes leave alone changes only by a host write, after the core's part. -/
theorem step_changes_by_write {α : Type} (field : State → α) {s t : State} (h : step s = .next t)
    (hrst : ∀ x, hostOp s ≠ .reset x) (hcore : ∀ u, coreCycle (beginCycle s) = .next u → field u = field s)
    (hport : ∀ (u : State) r l d, field { u with rdata := r, host := l, draws := d } = field u) (hne : field t ≠ field s) :
    ∃ a v u, hostOp s = .access (.wr a v) ∧ coreCycle (beginCycle s) = .next u ∧ t = hostWrite a v u := by
  obtain ⟨u, hu, ⟨a, v, hop, ht⟩ | ⟨r, l, d, rfl⟩⟩ := step_eq_next_without_reset h hrst
  · exact ⟨a, v, u, hop, hu, ht⟩
  · exact absurd ((hport u r l d).trans (hcore u hu)) hne

/-! ### What the core's part of a cycle writes -/

theorem afterCore_cfg {s u : State} (h : coreCycle (beginCycle s) = .next u) : u.cfg = s.cfg := by
  obtain ⟨hcfg, -⟩ := coreCycle_kept h
  exact hcfg

theorem afterCore_ovr {s u : State} (h : coreCycle (beginCycle s) = .next u) : u.ovr = s.ovr := by
  obtain ⟨-, -, hovr, -⟩ := coreCycle_kept h
  exact hovr

theorem afterCore_key {s u : State} (h : coreCycle (beginCycle s) = .next u) : u.key = s.key := by
  obtain ⟨-, -, -, -, hkey, -⟩ := coreCycle_kept h
  exact hkey

theorem afterCore_iv {s u : State} (h : coreCycle (beginCycle s) = .next u) : u.iv = s.iv := by
  obtain ⟨-, -, -, -, -, hiv, -⟩ := coreCycle_kept h
  exact hiv

/-- The core's part leaves the context alone, or completes a KEYEXP with a supported key length (10_state.md R32). -/
theorem coreCycle_context {s u : State} (h : coreCycle s = .next u) :
    (u.rk = s.rk ∧ u.nr = s.nr ∧ u.twk = s.twk ∧ u.ctxv = s.ctxv) ∨
      ((∃ n, s.inflight = some n ∧ n ≤ 1) ∧ u.ctxv = true ∧
        ∃ tweak nk, decode s.cmd = .instr (.keyexp tweak nk) ∧ supportedNk nk) := by
  rcases coreCycle_eq_next h with ⟨-, rfl⟩ | ⟨n, -, rfl⟩ | ⟨hdue, hc⟩
  · exact .inl ⟨rfl, rfl, rfl, rfl⟩
  · exact .inl ⟨rfl, rfl, rfl, rfl⟩
  · rcases completeCommand_eq_next hc with ⟨e, -, rfl⟩ | ⟨i, w, hdec, rfl, he⟩
    · exact .inl ⟨rfl, rfl, rfl, rfl⟩
    · by_cases hi : ∃ tweak nk, i = .keyexp tweak nk
      · obtain ⟨tweak, nk, rfl⟩ := hi
        obtain ⟨hs, rfl⟩ := he
        exact .inr ⟨hdue, rfl, tweak, nk, hdec, hs⟩
      · exact .inl (he.context fun tweak nk e => hi ⟨tweak, nk, e⟩)

/-- The core's part changes TAG only by completing a MAC that passes its check (10_state.md R31). -/
theorem coreCycle_tag_ne {s u : State} (h : coreCycle s = .next u) (hne : u.tag ≠ s.tag) :
    (∃ n, s.inflight = some n ∧ n ≤ 1) ∧ decode s.cmd = .instr .mac ∧ s.len.toNat + 16 ≤ s.cfg.dbufBytes := by
  rcases coreCycle_eq_next h with ⟨-, rfl⟩ | ⟨n, -, rfl⟩ | ⟨hdue, hc⟩
  · exact absurd rfl hne
  · exact absurd rfl hne
  · rcases completeCommand_eq_next hc with ⟨e, -, rfl⟩ | ⟨i, w, hdec, rfl, he⟩
    · exact absurd rfl hne
    · by_cases hi : i = .mac
      · subst hi
        obtain ⟨hcap, -⟩ := he
        exact ⟨hdue, hdec, hcap⟩
      · exact absurd (he.tag hi) hne

/-- The core's part makes no written byte of DBUF unwritten (10_state.md R34). -/
theorem coreCycle_written {s u : State} (h : coreCycle s = .next u) {o : Nat} (ho : (memGet s.dbuf o).isSome = true) :
    (memGet u.dbuf o).isSome = true := by
  rcases coreCycle_eq_next h with ⟨-, rfl⟩ | ⟨n, -, rfl⟩ | ⟨-, hc⟩
  · exact ho
  · exact ho
  · rcases completeCommand_eq_next hc with ⟨e, -, rfl⟩ | ⟨i, w, -, rfl, he⟩
    · exact ho
    · exact he.dbuf.written o ho

/-! ### The invariants of a step -/

@[simp] theorem resetCycle_cfg (x : Option Access) (s : State) : (resetCycle x s).cfg = s.cfg := by
  rcases x with - | ⟨a⟩ | ⟨a, v⟩ <;> rfl

/-- Settles O25: reset keeps the parameters, and so do the core's part and the host's. -/
theorem parametersNeverChange : Obligations.ParametersNeverChange := by
  intro s t h
  by_cases hrst : ∃ x, hostOp s = .reset x
  · obtain ⟨x, hx⟩ := hrst
    rw [step_of_reset hx] at h
    obtain rfl := Host.Outcome.next.inj h
    simp
  · obtain ⟨u, hcore, hkept⟩ := step_hostKeptFields h fun x hx => hrst ⟨x, hx⟩
    exact (congrArg Prod.fst hkept).trans (afterCore_cfg hcore)

/-- Settles O26: the context after a step is that after the core's part. -/
theorem contextWrittenOnlyByKeyexp : Obligations.ContextWrittenOnlyByKeyexp := by
  intro s t h hrst
  obtain ⟨u, hcore, hkept⟩ := step_hostKeptFields h hrst
  simp only [hostKeptFields, Prod.mk.injEq] at hkept
  obtain ⟨-, hrk, hnr, htwk, hctxv, -⟩ := hkept
  rw [hrk, hnr, htwk, hctxv]
  exact coreCycle_context (s := beginCycle s) hcore

/-- Settles O27: TAG after a step is that after the core's part. -/
theorem tagWrittenOnlyByMac : Obligations.TagWrittenOnlyByMac := by
  intro s t h hrst hne
  obtain ⟨u, hcore, hkept⟩ := step_hostKeptFields h hrst
  simp only [hostKeptFields, Prod.mk.injEq] at hkept
  obtain ⟨-, -, -, -, -, htag⟩ := hkept
  rw [htag] at hne
  exact coreCycle_tag_ne (s := beginCycle s) hcore hne

/-- Settles O28: the core's part writes neither KEY nor IV, so the change is that of a host write. -/
theorem keyAndIvWrittenOnlyByHost : Obligations.KeyAndIvWrittenOnlyByHost := by
  intro s t h hrst
  constructor
  · intro hne
    obtain ⟨a, v, u, hop, hu, rfl⟩ :=
      step_changes_by_write State.key h hrst (fun _ => afterCore_key) (fun _ _ _ _ => rfl) hne
    have hcfg : u.cfg = s.cfg := afterCore_cfg hu
    rcases hostWrite_key_cases a v u with hkept | ⟨hk, hb⟩
    · exact absurd (hkept.trans (afterCore_key hu)) hne
    · exact ⟨a, v, u, hop, hcfg ▸ hk, hu, hb⟩
  · intro hne
    obtain ⟨a, v, u, hop, hu, rfl⟩ :=
      step_changes_by_write State.iv h hrst (fun _ => afterCore_iv) (fun _ _ _ _ => rfl) hne
    have hcfg : u.cfg = s.cfg := afterCore_cfg hu
    rcases hostWrite_iv_cases a v u with hkept | ⟨hk, hb⟩
    · exact absurd (hkept.trans (afterCore_iv hu)) hne
    · exact ⟨a, v, u, hop, hcfg ▸ hk, hu, hb⟩

/-- Settles O29: the core's part keeps OVR, and of the host's accesses only a write to STATUS can clear it. -/
theorem overrunIsSticky : Obligations.OverrunIsSticky := by
  intro s t h hrst h1 h0
  obtain ⟨a, v, u, hop, hu, rfl⟩ :=
    step_changes_by_write State.ovr h hrst (fun _ => afterCore_ovr) (fun _ _ _ _ => rfl) (by simp [h1, h0])
  have hu1 : u.ovr = true := (afterCore_ovr hu).trans h1
  have hcfg : u.cfg = s.cfg := afterCore_cfg hu
  rcases hostWrite_ovr_cases a v u with e | e | ⟨hr, e⟩
  · simp [e, hu1] at h0
  · simp [e] at h0
  · exact ⟨a, v, hop, hcfg ▸ hr, by simpa [e, hu1] using h0⟩

/-! ### How a step stops -/

/-- Only a read of the DBUF window can stop, and then on an unwritten byte of the word it selects (20_memory.md R57; log 6). -/
theorem readReg_eq_error {u : State} {r : Reg} {f : Fault} (h : readReg u r = .error f) :
    ∃ k, r = .dbuf k ∧ ∃ j < 4, f = .dbufUnwritten (4 * k + j) ∧ memGet u.dbuf (4 * k + j) = none := by
  cases r with
  | dbuf k => exact ⟨k, rfl, readQuad_eq_error (except_map_eq_error.mp h)⟩
  | _ => cases h

theorem hostRead_eq_fault {u : State} {a : BitVec 14} {f : Fault} (h : hostRead a u = .fault f) :
    readReg u (regAt u.cfg a) = .error f := by
  unfold hostRead at h
  split_ifs at h
  split at h
  · cases h
  · rename_i hr
    rw [hr, Host.Outcome.fault.inj h]

theorem hostRead_ne_refused (u : State) (a : BitVec 14) (r : Refusal) : hostRead a u ≠ .refused r := by
  unfold hostRead
  split_ifs
  · simp
  · split <;> simp

/-- A step stops in the completion of the command in flight, or in the host's read after the core's part. -/
theorem step_eq_fault {s : State} {f : Fault} (h : step s = .fault f) :
    completeCommand (beginCycle s) = .fault f ∨
      ∃ u a, coreCycle (beginCycle s) = .next u ∧ hostRead a u = .fault f := by
  cases hop : hostOp s with
  | reset x => rw [step_of_reset hop] at h; cases h
  | idle =>
    rw [step_of_idle hop] at h
    exact .inl (coreCycle_eq_fault h)
  | access x =>
    rw [step_eq_andThen_of_access hop] at h
    rcases andThen_eq_fault.mp h with h | ⟨u, hu, h⟩
    · exact .inl (coreCycle_eq_fault h)
    · cases x with
      | rd a => exact .inr ⟨u, a, hu, h⟩
      | wr a v => cases h
  | poll =>
    rw [step_eq_andThen_of_poll hop] at h
    rcases andThen_eq_fault.mp h with h | ⟨u, -, h⟩
    · exact .inl (coreCycle_eq_fault h)
    · rw [pollStatus_eq] at h
      cases h

theorem step_ne_refused (s : State) (r : Refusal) : step s ≠ .refused r := by
  intro h
  cases hop : hostOp s with
  | reset x => rw [step_of_reset hop] at h; cases h
  | idle =>
    rw [step_of_idle hop] at h
    exact coreCycle_ne_refused _ _ h
  | access x =>
    rw [step_eq_andThen_of_access hop] at h
    rcases andThen_eq_refused.mp h with h | ⟨u, -, h⟩
    · exact coreCycle_ne_refused _ _ h
    · cases x with
      | rd a => exact hostRead_ne_refused _ _ _ h
      | wr a v => cases h
  | poll =>
    rw [step_eq_andThen_of_poll hop] at h
    rcases andThen_eq_refused.mp h with h | ⟨u, -, h⟩
    · exact coreCycle_ne_refused _ _ h
    · rw [pollStatus_eq] at h
      cases h

/-- Settles O30: a command stops on an unwritten byte inside the capacity; a host read stops inside the window on a byte that is
unwritten after the core's part, so was unwritten before it. -/
theorem stepStopsOnlyOnUnwrittenByte : Obligations.StepStopsOnlyOnUnwrittenByte := by
  intro s hlegal
  refine ⟨step_ne_refused s, fun f h => ?_⟩
  rcases step_eq_fault h with hc | ⟨u, a, hcore, hread⟩
  · obtain ⟨o, ho, hf, hn⟩ := completeCommand_eq_fault hc
    exact ⟨o, hf, ho, hn⟩
  · obtain ⟨k, hk, j, hj, hf, hn⟩ := readReg_eq_error (hostRead_eq_fault hread)
    have hcfg : u.cfg = s.cfg := afterCore_cfg hcore
    rw [hcfg] at hk
    have hin := window_lt hlegal hk
    refine ⟨4 * k + j, hf, by omega, ?_⟩
    by_contra hs
    have hwritten := coreCycle_written hcore (Option.isSome_iff_ne_none.mpr hs)
    rw [hn] at hwritten
    cases hwritten

end Sys2Proof.Machine

/-! The memory family: the register map at every word address, the DBUF window, what ignores a write, and the reads while BUSY = 1
(20_memory.md R51 to R57, R60). -/

namespace Sys2Proof.Machine

/-! ### The register map -/

section RegisterMap

variable {c : Config}

/-- Bits [1:0] of a byte address are not wired, so a word address selects by the multiple of 4 at or below it (R53). -/
theorem regAt_wordAddress {b : Nat} (hb : b < 0x10000) :
    regAt c (wordAddress b) = regOfByteAddress c.dbufBytes (4 * (b / 4)) := by
  have hbyte : byteAddress (wordAddress b) = 4 * (b / 4) := by
    simp only [byteAddress, wordAddress, BitVec.toNat_ofNat]
    omega
  rw [regAt, hbyte]

/-- Register `k` of a group at `base` stands at `base + 4k`; `k` is found back by dividing. -/
theorem group_index {n base : Nat} (hbase : base % 4 = 0) (k : Fin n) (h : (4 * ((base + 4 * k) / 4) - base) / 4 < n) :
    (⟨(4 * ((base + 4 * k) / 4) - base) / 4, h⟩ : Fin n) = k :=
  Fin.ext (by simp only; omega)

theorem regAt_key (k : Fin 8) : regAt c (wordAddress (0x020 + 4 * k)) = .key k := by
  have hk := k.isLt
  rw [regAt_wordAddress (by omega), regOfByteAddress]
  simp (disch := omega) only [if_neg, dif_pos, group_index]

theorem regAt_iv (k : Fin 4) : regAt c (wordAddress (0x040 + 4 * k)) = .iv k := by
  have hk := k.isLt
  rw [regAt_wordAddress (by omega), regOfByteAddress]
  simp (disch := omega) only [if_neg, dif_neg, dif_pos, group_index]

theorem regAt_tag (k : Fin 4) : regAt c (wordAddress (0x050 + 4 * k)) = .tag k := by
  have hk := k.isLt
  rw [regAt_wordAddress (by omega), regOfByteAddress]
  simp (disch := omega) only [if_neg, dif_neg, dif_pos, group_index]

theorem regAt_rk (k : Fin 60) : regAt c (wordAddress (0x100 + 4 * k)) = .rk k := by
  have hk := k.isLt
  rw [regAt_wordAddress (by omega), regOfByteAddress]
  simp (disch := omega) only [if_neg, dif_neg, dif_pos, group_index]

/-- The reserved places of R51; the last one starts right after the window, at a multiple of 16. -/
theorem regAt_reserved (hc : c.Legal) {b : Nat} (hb : (0x018 ≤ b ∧ b ≤ 0x01C) ∨ (0x060 ≤ b ∧ b ≤ 0x0FC) ∨
    (0x1F0 ≤ b ∧ b ≤ 0xFFC) ∨ (0x1000 + c.dbufBytes ≤ b ∧ b ≤ 0xFFFC)) : regAt c (wordAddress b) = .reserved := by
  obtain ⟨h16, hmin, -⟩ := hc
  rw [regAt_wordAddress (by omega), regOfByteAddress]
  simp (disch := omega) only [if_neg, dif_neg]

end RegisterMap

/-- Settles O11: each place of R51 by the lemma of its range. -/
theorem registerMap : Obligations.RegisterMap := fun c hc =>
  ⟨regAt_id c, regAt_ctrl c, regAt_status c, regAt_cmd c, rfl, rfl, regAt_key, regAt_iv, regAt_tag, regAt_rk,
    fun _ => regAt_window hc, fun _ => regAt_reserved hc⟩

/-! ### Host reads and writes in a step -/

section PortAccess

variable {s u : State} {a : BitVec 14} {v : Word}

/-- A read of what BUSY does not hide is answered with its current value, BUSY or not (R60). -/
theorem step_of_visible_read (hcore : coreCycle (beginCycle s) = .next u) (hop : hostOp s = .access (.rd a))
    (hvis : hiddenWhileBusy (regAt u.cfg a) = false) (hv : readReg u (regAt u.cfg a) = .ok v) :
    step s = .next { u with rdata := some v } := by
  rw [step_of_access hcore hop]
  simp [hostAccess, hostRead, hvis, hv]

/-- A read of what BUSY hides is answered with a free value while BUSY = 1 (R60; log 5). -/
theorem step_of_hidden_read (hcore : coreCycle (beginCycle s) = .next u) (hop : hostOp s = .access (.rd a))
    (hb : busy u = true) (hhid : hiddenWhileBusy (regAt u.cfg a) = true) : step s = .next (readFree a u) := by
  rw [step_of_access hcore hop]
  simp [hostAccess, hostRead, hb, hhid]

theorem hostWrite_of_ctrl (hr : regAt u.cfg a = .ctrl) : hostWrite a v u = { u with ie := v.getLsbD 0 } := by
  simp [hostWrite, hr, writeReg]

theorem hostWrite_of_status (hr : regAt u.cfg a = .status) : hostWrite a v u = writeStatus v u := by
  simp [hostWrite, hr, writeReg]

theorem hostWrite_of_dbuf {k : Nat} (hb : busy u = false) (hr : regAt u.cfg a = .dbuf k) :
    hostWrite a v u = { u with dbuf := writeQuad u.dbuf (4 * k) (unpackWord v) } := by
  simp [hostWrite, hr, writeReg, unlessBusy, hb]

/-- Reserved addresses and RO registers ignore a write (R52). -/
theorem hostWrite_ignored (hr : regAt u.cfg a = .reserved ∨ regAt u.cfg a = .id ∨ regAt u.cfg a = .dbufsz ∨
    (∃ k, regAt u.cfg a = .tag k) ∨ (∃ k, regAt u.cfg a = .rk k)) : hostWrite a v u = u := by
  rcases hr with hr | hr | hr | ⟨k, hr⟩ | ⟨k, hr⟩
  all_goals simp only [hostWrite, hr, writeReg]

end PortAccess

/-! ### The DBUF window -/

/-- A window word whose four bytes are written reads as these bytes, the one at the lowest offset lowest (R57). -/
theorem readReg_dbuf {u : State} {k : Nat} {b0 b1 b2 b3 : Byte} (h0 : memGet u.dbuf (4 * k) = some b0)
    (h1 : memGet u.dbuf (4 * k + 1) = some b1) (h2 : memGet u.dbuf (4 * k + 2) = some b2)
    (h3 : memGet u.dbuf (4 * k + 3) = some b3) : readReg u (.dbuf k) = .ok (b3 ++ b2 ++ b1 ++ b0) :=
  except_map_eq_ok.mpr ⟨⟨b0, b1, b2, b3⟩, readQuad_eq_ok.mpr ⟨h0, h1, h2, h3⟩, rfl⟩

/-- The window's word write sets byte `j` of the word to bits [8j+7 : 8j] (R57). -/
theorem memGet_writeQuad_unpackWord (m : Memory) (a : Nat) (v : Word) {j : Nat} (hj : j < 4) :
    memGet (writeQuad m a (unpackWord v)) (a + j) = some (v.extractLsb' (8 * j) 8) := by
  rw [memGet_writeQuad, if_pos (by omega), Nat.add_sub_cancel_left, unpackWord_byte v j hj]

theorem sameOutside_writeQuad (m : Memory) (a : Nat) (q : Quad) : SameOutside m (writeQuad m a q) a 4 := by
  intro j hj
  rw [memGet_writeQuad, if_neg hj]

/-- A word of the window stays selected after the core's part, which writes no parameter (R38, R51). -/
theorem regAt_window_afterCore {s u : State} {k : Nat} (hlegal : s.cfg.Legal) (hcore : coreCycle (beginCycle s) = .next u)
    (hk : 4 * k < u.cfg.dbufBytes) : regAt u.cfg (wordAddress (0x1000 + 4 * k)) = .dbuf k :=
  regAt_window ((afterCore_cfg hcore).symm ▸ hlegal) hk

/-- Settles O15: `0x1000 + 4k` selects window word `k`, which is read and written by the one packing of R56. -/
theorem dbufWindow : Obligations.DbufWindow := by
  constructor
  · intro s u k b0 b1 b2 b3 hlegal hcore hb hk hop h0 h1 h2 h3
    exact step_of_read hcore hop hb (regAt_window_afterCore hlegal hcore hk ▸ readReg_dbuf h0 h1 h2 h3)
  · intro s u k v hlegal hcore hb hk hop
    have hstep := step_of_write hcore hop
    rw [hostWrite_of_dbuf hb (regAt_window_afterCore hlegal hcore hk)] at hstep
    exact ⟨_, hstep, rfl, fun j hj => memGet_writeQuad_unpackWord _ _ v hj, sameOutside_writeQuad _ _ _⟩

/-! ### Reserved places and read-only fields -/

/-- The reserved bits of STATUS read 0 (R24, R52). -/
theorem statusWord_reserved (s : State) : statusWord s &&& 0xFFF0F0E0 = 0 := by
  apply BitVec.eq_of_getLsbD_eq
  intro i hi
  rw [BitVec.getLsbD_and, statusWord_bit]
  interval_cases i <;> simp

/-- Settles O12: the reads are of registers that BUSY does not hide, and the writes change IE, or DONE and OVR, or nothing. -/
theorem reservedAndReadOnly : Obligations.ReservedAndReadOnly := by
  refine ⟨fun s u a hcore hop hr => ?_, fun s u a v hcore hop hr => ?_, fun s u v hcore hop => ?_,
    fun s u v hcore hop => ?_, fun s u hcore hop => ?_, statusWord_reserved⟩
  · exact step_of_visible_read hcore hop (hr ▸ rfl) (hr ▸ rfl)
  · rw [step_of_write hcore hop, hostWrite_ignored hr]
  · rw [step_of_write hcore hop, hostWrite_of_ctrl (regAt_ctrl u.cfg)]
  · exact ⟨_, _, (step_of_write hcore hop).trans (congrArg _ (hostWrite_of_status (regAt_status u.cfg)))⟩
  · exact ⟨_, step_of_visible_read hcore hop rfl (readReg_ctrl u), by cases u.ie <;> rfl⟩

/-! ### Reads while BUSY = 1 -/

/-- Settles O17: BUSY hides the register groups and the window, and nothing else. -/
theorem busyReads : Obligations.BusyReads := by
  intro s u a hcore hb hop
  have hvisible : ∀ {r : Reg} {v : Word}, hiddenWhileBusy r = false → readReg u r = .ok v → regAt u.cfg a = r →
      step s = .next { u with rdata := some v } := fun hvis hv hr => step_of_visible_read hcore hop (hr ▸ hvis) (hr ▸ hv)
  have hhidden : ∀ {r : Reg}, hiddenWhileBusy r = true → regAt u.cfg a = r →
      ∃ v, step s = .next { u with rdata := some v, draws := u.draws + 1 } :=
    fun hhid hr => ⟨_, step_of_hidden_read hcore hop hb (hr ▸ hhid)⟩
  cases hr : regAt u.cfg a with
  | id => exact hvisible rfl rfl hr
  | ctrl => exact hvisible rfl (readReg_ctrl u) hr
  | status => exact hvisible rfl rfl hr
  | cmd => exact hvisible rfl rfl hr
  | len => exact hvisible rfl rfl hr
  | dbufsz => exact hvisible rfl rfl hr
  | reserved => exact hvisible rfl rfl hr
  | key k => exact hhidden rfl hr
  | iv k => exact hhidden rfl hr
  | tag k => exact hhidden rfl hr
  | rk k => exact hhidden rfl hr
  | dbuf k => exact hhidden rfl hr

end Sys2Proof.Machine

/-! The encoding family: a command word as the row of the opcode map it belongs to, with the operands read from its fields
(30_encoding.md R80 to R90). -/

namespace Sys2Proof.Machine

/-! ### Words by their fields -/

/-- The fields of R80 cover the word, so two words agree when their fields do. The reserved fields are 0, as in every word the
decoder takes. -/
theorem eq_iff_fields {v w : Word} (h76 : reserved76 w = 0) (h1512 : reserved1512 w = 0) :
    v = w ↔ opField v = opField w ∧ reserved76 v = 0 ∧ reserved1512 v = 0 ∧ ivenField v = ivenField w ∧
      tweakField v = tweakField w ∧ nkField v = nkField w ∧ bidxField v = bidxField w := by
  constructor
  · rintro rfl
    exact ⟨rfl, h76, h1512, rfl, rfl, rfl, rfl⟩
  · rintro ⟨hop, hv76, hv1512, hiven, htweak, hnk, hbidx⟩
    rw [← wordOfFields_fields hv76 hv1512, ← wordOfFields_fields h76 h1512, hop, hiven, htweak, hnk, hbidx]

/-- A field of a masked word, where the mask is given by the bits it drops. -/
theorem extractLsb'_and_not (w u : Word) {start len : Nat} (h : start + len ≤ 32) :
    (w &&& ~~~u).extractLsb' start len = w.extractLsb' start len &&& ~~~u.extractLsb' start len := by
  apply BitVec.eq_of_getLsbD_eq
  intro i hi
  have hin : start + i < 32 := by omega
  simp [hi, hin]

section FieldsOfMasked

variable (w u : Word)

@[simp] theorem opField_and_not : opField (w &&& ~~~u) = opField w &&& ~~~opField u :=
  extractLsb'_and_not w u (by decide)

@[simp] theorem reserved76_and_not : reserved76 (w &&& ~~~u) = reserved76 w &&& ~~~reserved76 u :=
  extractLsb'_and_not w u (by decide)

@[simp] theorem reserved1512_and_not : reserved1512 (w &&& ~~~u) = reserved1512 w &&& ~~~reserved1512 u :=
  extractLsb'_and_not w u (by decide)

@[simp] theorem nkField_and_not : nkField (w &&& ~~~u) = nkField w &&& ~~~nkField u :=
  extractLsb'_and_not w u (by decide)

@[simp] theorem bidxField_and_not : bidxField (w &&& ~~~u) = bidxField w &&& ~~~bidxField u :=
  extractLsb'_and_not w u (by decide)

@[simp] theorem ivenField_and_not : ivenField (w &&& ~~~u) = (ivenField w && !ivenField u) := by
  simp [ivenField]

@[simp] theorem tweakField_and_not : tweakField (w &&& ~~~u) = (tweakField w && !tweakField u) := by
  simp [tweakField]

end FieldsOfMasked

/-! ### The row of a command -/

/-- OP of a command's word (R81). -/
def opcodeOf : Instr → BitVec 4
  | .nop => 0x0
  | .keyexp _ _ => 0x1
  | .encb _ => 0x2
  | .decb _ => 0x3
  | .cbcenc _ => 0x4
  | .cbcdec _ => 0x5
  | .mac => 0x6

/-- The bits of `w` that the command does not use are clear (R80, R87). -/
def sparesClear (w : Word) : Instr → Bool
  | .nop => unusedClear w false false false false
  | .keyexp _ _ => unusedClear w false true true false
  | .encb _ => unusedClear w false false false true
  | .decb _ => unusedClear w false false false true
  | .cbcenc _ => unusedClear w true false false false
  | .cbcdec _ => unusedClear w true false false false
  | .mac => unusedClear w false false false false

/-- The command with its operands read from the fields of `w` (R82 to R85). -/
def withOperandsOf (w : Word) : Instr → Instr
  | .nop => .nop
  | .keyexp _ _ => .keyexp (tweakField w) (nkField w).toNat
  | .encb _ => .encb (bidxField w).toNat
  | .decb _ => .decb (bidxField w).toNat
  | .cbcenc _ => .cbcenc (ivenField w)
  | .cbcdec _ => .cbcdec (ivenField w)
  | .mac => .mac

theorem ifClear_eq_instr {clear : Bool} {i j : Instr} : ifClear clear i = .instr j ↔ clear = true ∧ i = j := by
  cases clear <;> simp [ifClear]

/-- A word with the OP of a command and no bit that the command does not use decodes to that command (R88). -/
theorem decode_of_row {w : Word} {i : Instr} (hop : opField w = opcodeOf i) (hclear : sparesClear w i = true) :
    decode w = .instr (withOperandsOf w i) := by
  cases i
  all_goals
    simp only [decode, hop]
    exact ifClear_eq_instr.mpr ⟨hclear, rfl⟩

/-- A word decodes to a command only by that command's OP and operands, with no bit the command does not use (R87, R88). -/
theorem row_of_decode {w : Word} {i : Instr} (h : decode w = .instr i) :
    opField w = opcodeOf i ∧ sparesClear w i = true ∧ withOperandsOf w i = i := by
  unfold decode at h
  split at h
  case h_8 => cases h
  all_goals
    rename_i hop
    obtain ⟨hclear, rfl⟩ := ifClear_eq_instr.mp h
    exact ⟨BitVec.eq_of_toNat_eq hop, hclear, rfl⟩

theorem reserved_of_sparesClear {w : Word} {i : Instr} (h : sparesClear w i = true) :
    reserved76 w = 0 ∧ reserved1512 w = 0 := by
  cases i
  all_goals
    simp only [sparesClear, unusedClear, Bool.and_eq_true, beq_iff_eq] at h
    obtain ⟨⟨⟨⟨hreserved, -⟩, -⟩, -⟩, -⟩ := h
    exact hreserved

/-- The operand fields a command uses, with every bit set (R80). -/
def usedBits : Instr → Word
  | .nop => wordOfFields 0 0 false false 0
  | .keyexp _ _ => wordOfFields 0 (BitVec.allOnes 4) true false 0
  | .encb _ => wordOfFields (BitVec.allOnes 16) 0 false false 0
  | .decb _ => wordOfFields (BitVec.allOnes 16) 0 false false 0
  | .cbcenc _ => wordOfFields 0 0 false true 0
  | .cbcdec _ => wordOfFields 0 0 false true 0
  | .mac => wordOfFields 0 0 false false 0

/-- A row's mask drops the operand fields the command uses, and its match is OP alone (R86). -/
theorem opcodeRow_eq (i : Instr) : opcodeRow i = ⟨~~~usedBits i, wordOfFields 0 0 false false (opcodeOf i)⟩ := by
  cases i
  all_goals
    simp only [opcodeRow, usedBits, opcodeOf]
    decide

/-- The mask and match of a command's row test its OP and the bits it does not use (R86). -/
theorem accepts_opcodeRow (w : Word) (i : Instr) :
    (opcodeRow i).accepts w = true ↔ opField w = opcodeOf i ∧ sparesClear w i = true := by
  rw [opcodeRow_eq, OpcodeRow.accepts, beq_iff_eq, eq_iff_fields (by simp) (by simp)]
  cases i
  all_goals simp [usedBits, sparesClear, unusedClear, and_assoc, -BitVec.reduceNot, -BitVec.reduceAllOnes]

theorem opcodeRow_mem_opcodeTable (i : Instr) : opcodeRow i ∈ opcodeTable := by
  cases i <;> simp [opcodeTable, opcodeRow]

theorem exists_opcodeRow_of_mem {r : OpcodeRow} (h : r ∈ opcodeTable) : ∃ i, opcodeRow i = r := by
  simp only [opcodeTable, List.mem_cons, List.not_mem_nil, or_false] at h
  rcases h with rfl | rfl | rfl | rfl | rfl | rfl | rfl <;> exact ⟨_, rfl⟩

theorem opcodeRow_withOperandsOf (w : Word) (i : Instr) : opcodeRow (withOperandsOf w i) = opcodeRow i := by
  cases i <;> rfl

/-! ### Round trips -/

theorem opField_encode (i : Instr) : opField (encode i) = opcodeOf i := by
  cases i <;> exact opField_wordOfFields ..

theorem sparesClear_encode (i : Instr) : sparesClear (encode i) i = true := by
  cases i with
  | nop => exact Laws.OperandsInUse.nop
  | keyexp tweak nk => exact Laws.OperandsInUse.keyexp tweak nk
  | encb bidx => exact Laws.OperandsInUse.encb bidx
  | decb bidx => exact Laws.OperandsInUse.decb bidx
  | cbcenc iven => exact Laws.OperandsInUse.cbcenc iven
  | cbcdec iven => exact Laws.OperandsInUse.cbcdec iven
  | mac => exact Laws.OperandsInUse.mac

/-- Operands that fit their fields are read back from the command's word (R84, R85). -/
theorem withOperandsOf_encode {i : Instr} (h : i.wellFormed = true) : withOperandsOf (encode i) i = i := by
  cases i with
  | keyexp tweak nk | encb bidx | decb bidx =>
    simp only [Instr.wellFormed, decide_eq_true_eq] at h
    simp [withOperandsOf, encode, Nat.mod_eq_of_lt h]
  | nop | mac => rfl
  | cbcenc iven | cbcdec iven => simp [withOperandsOf, encode]

theorem wellFormed_withOperandsOf (w : Word) (i : Instr) : (withOperandsOf w i).wellFormed = true := by
  cases i with
  | keyexp | encb | decb => exact decide_eq_true (BitVec.isLt _)
  | nop | cbcenc | cbcdec | mac => rfl

/-- The word of the command that a row reads from `w` is `w`. -/
theorem encode_withOperandsOf {w : Word} {i : Instr} (hop : opField w = opcodeOf i) (hclear : sparesClear w i = true) :
    encode (withOperandsOf w i) = w := by
  obtain ⟨h76, h1512⟩ := reserved_of_sparesClear hclear
  rw [← wordOfFields_fields h76 h1512, hop]
  cases i
  all_goals
    simp [sparesClear, unusedClear] at hclear
    simp [encode, withOperandsOf, opcodeOf, hclear]

/-- Settles O1: the word has the command's OP and no other bit than its operands', which are read back. -/
theorem decodeOfEncode : Obligations.DecodeOfEncode := by
  intro i hwf
  rw [decode_of_row (opField_encode i) (sparesClear_encode i), withOperandsOf_encode hwf]

/-- Settles O2: the command's operands are the word's fields, and every other bit of the word is OP's or clear. -/
theorem encodeOfDecode : Obligations.EncodeOfDecode := by
  intro w i h
  obtain ⟨hop, hclear, hi⟩ := row_of_decode h
  rw [← hi]
  exact ⟨wellFormed_withOperandsOf w i, encode_withOperandsOf hop hclear⟩

/-! ### The opcode map -/

theorem decode_of_accepts {w : Word} {i : Instr} (h : (opcodeRow i).accepts w = true) :
    decode w = .instr (withOperandsOf w i) := by
  obtain ⟨hop, hclear⟩ := (accepts_opcodeRow w i).mp h
  exact decode_of_row hop hclear

theorem accepts_of_decode {w : Word} {i : Instr} (h : decode w = .instr i) : (opcodeRow i).accepts w = true := by
  obtain ⟨hop, hclear, -⟩ := row_of_decode h
  exact (accepts_opcodeRow w i).mpr ⟨hop, hclear⟩

/-- The row of the opcode map that accepts a word is the row of the command the word decodes to (R88). -/
theorem decode_of_mem_accepts {w : Word} {r : OpcodeRow} (hr : r ∈ opcodeTable) (h : r.accepts w = true) :
    ∃ i, decode w = .instr i ∧ opcodeRow i = r := by
  obtain ⟨i, rfl⟩ := exists_opcodeRow_of_mem hr
  exact ⟨_, decode_of_accepts h, opcodeRow_withOperandsOf w i⟩

/-- Settles O3: two rows that accept a word are both the row of the one command it decodes to. -/
theorem decodeFollowsOpcodeMap : Obligations.DecodeFollowsOpcodeMap := by
  refine fun w => ⟨fun i h => ⟨accepts_of_decode h, opcodeRow_mem_opcodeTable i⟩,
    fun r hr h => decode_of_mem_accepts hr h, fun hnone => ?_, fun r hr r' hr' h h' => ?_⟩
  · cases hdec : decode w with
    | illegal why => exact ⟨why, rfl⟩
    | instr i =>
      have := hnone _ (opcodeRow_mem_opcodeTable i)
      rw [accepts_of_decode hdec] at this
      cases this
  · obtain ⟨i, hi, rfl⟩ := decode_of_mem_accepts hr h
    obtain ⟨j, hj, rfl⟩ := decode_of_mem_accepts hr' h'
    rw [Decoded.instr.inj (hi.symm.trans hj)]

/-! ### The examples and the assembler words -/

theorem exec_keyexp_of_unsupported {nk : Nat} (h : ¬ supportedNk nk) (tweak : Bool) (s : State) :
    exec (.keyexp tweak nk) s = raiseError .invalidKeyLength s :=
  if_neg h

/-- Settles O4: the words are decoded by evaluation, and NK = 7 is not supported. -/
theorem encodingExamples : Obligations.EncodingExamples := by
  have hexec := exec_keyexp_of_unsupported (nk := 7) (by decide) false
  refine ⟨?_, ?_, ?_, ?_, ?_, ?_, ?_, ?_, ?_, ?_, ?_, ?_, hexec⟩ <;> decide

/-- A word as the OR of its shifted fields, the form in which R89 writes it. -/
theorem wordOfFields_eq_or (bidx : BitVec 16) (nk : BitVec 4) (tweak iven : Bool) (op : BitVec 4) :
    wordOfFields bidx nk tweak iven op = op.setWidth 32 ||| (BitVec.ofBool iven).setWidth 32 <<< 4 |||
      (BitVec.ofBool tweak).setWidth 32 <<< 5 ||| nk.setWidth 32 <<< 8 ||| bidx.setWidth 32 <<< 16 := by
  apply BitVec.eq_of_getLsbD_eq
  intro i hi
  simp only [wordOfFields, BitVec.getLsbD_append, BitVec.getLsbD_or, BitVec.getLsbD_shiftLeft, BitVec.getLsbD_setWidth]
  interval_cases i <;> simp

theorem encode_keyexp {nk : Nat} (h : nk < 16) (tweak : Bool) :
    encode (.keyexp tweak nk) = (if tweak then 0x00000021 else 0x00000001) ||| BitVec.ofNat 32 nk <<< 8 := by
  rw [encode, wordOfFields_eq_or, BitVec.setWidth_ofNat_of_le_of_lt (by decide) h]
  cases tweak <;> simp

/-- The words of ENCB and DECB (R89), for any OP. -/
theorem wordOfFields_bidx {b : Nat} (h : b < 65536) (op : BitVec 4) :
    wordOfFields (BitVec.ofNat 16 b) 0 false false op = op.setWidth 32 ||| BitVec.ofNat 32 b <<< 16 := by
  rw [wordOfFields_eq_or, BitVec.setWidth_ofNat_of_le_of_lt (by decide) h]
  simp

/-- Settles O5: the words with an operand by their shifted fields, and a `poll` cycle by what `poll` reads (log 17). -/
theorem assemblerSyntax : Obligations.AssemblerSyntax := by
  refine ⟨by decide, fun nk h => ⟨encode_keyexp h false, encode_keyexp h true⟩,
    fun b h => ⟨wordOfFields_bidx h 0x2, wordOfFields_bidx h 0x3⟩,
    by decide, by decide, by decide, by decide, by decide, fun _ => rfl, fun s u hcore hop => ?_⟩
  rw [step_of_poll hcore hop, pollStatus_eq]

end Sys2Proof.Machine

/-! The tables family: the substitution tables, multiplication in GF(2^8), and the stages of a round with their inverse laws
(40_tables_and_stages.md R100 to R117). -/

namespace Sys2Proof.Machine

/-! ### The substitution tables -/

/-- The affine map of the S-box's construction (R102). -/
def affineMap (b : Byte) : Byte :=
  b ^^^ b.rotateLeft 1 ^^^ b.rotateLeft 2 ^^^ b.rotateLeft 3 ^^^ b.rotateLeft 4 ^^^ 0x63

/-- The map that undoes `affineMap`. Applied to an entry of the S-box it gives the field inverse the entry was built from. -/
def affineMapInv (b : Byte) : Byte := b.rotateLeft 1 ^^^ b.rotateLeft 3 ^^^ b.rotateLeft 6 ^^^ 0x05

theorem affineMap_affineMapInv : ∀ b : Byte, affineMap (affineMapInv b) = b := by decide +kernel

theorem invSbox_sbox : ∀ x : Byte, invSbox (sbox x) = x := by decide +kernel

theorem sbox_invSbox : ∀ y : Byte, sbox (invSbox y) = y := by decide +kernel

/-- The byte under an entry of the S-box is the field inverse of the entry's index, with 0 for 0. -/
theorem gmul_affineMapInv_sbox :
    ∀ x : Byte, if x = 0 then affineMapInv (sbox x) = 0 else gmul x (affineMapInv (sbox x)) = 1 := by decide +kernel

/-- Settles O40: the field inverse of `x` is read off its S-box entry by undoing the affine map. -/
theorem substitutionTables : Obligations.SubstitutionTables :=
  ⟨invSbox_sbox, sbox_invSbox, fun x =>
    ⟨affineMapInv (sbox x), gmul_affineMapInv_sbox x, (affineMap_affineMapInv (sbox x)).symm⟩⟩

/-! ### Multiplication in GF(2^8) -/

theorem xtimePow_eq_iterate (k : Nat) (a : Byte) : xtimePow k a = xtime^[k] a := by
  induction k with
  | zero => rfl
  | succ k ih => rw [xtimePow, ih, Function.iterate_succ_apply']

/-- The sum of R104 over the list of the bits set in `c`. -/
theorem gmul_of_setBits {c : Byte} {ks : List Nat} (h : (List.range 8).filter (fun k => c.getLsbD k) = ks) (a : Byte) :
    gmul a c = ks.foldl (fun acc k => acc ^^^ xtimePow k a) 0 := by
  rw [← h, List.foldl_filter, gmul]

theorem gmul_two (a : Byte) : gmul a 2 = mul2 a := by
  rw [gmul_of_setBits (ks := [1]) (by decide)]
  simp [mul2, xtimePow]

theorem gmul_three (a : Byte) : gmul a 3 = mul3 a := by
  rw [gmul_of_setBits (ks := [0, 1]) (by decide)]
  simp [mul3, xtimePow, BitVec.xor_comm]

theorem gmul_nine (a : Byte) : gmul a 0x09 = mul9 a := by
  rw [gmul_of_setBits (ks := [0, 3]) (by decide)]
  simp [mul9, xtimePow, BitVec.xor_comm]

theorem gmul_eleven (a : Byte) : gmul a 0x0B = mulB a := by
  rw [gmul_of_setBits (ks := [0, 1, 3]) (by decide)]
  simp only [List.foldl, mulB, BitVec.ofNat_eq_ofNat, BitVec.zero_xor, xtimePow]
  ac_rfl

theorem gmul_thirteen (a : Byte) : gmul a 0x0D = mulD a := by
  rw [gmul_of_setBits (ks := [0, 2, 3]) (by decide)]
  simp only [List.foldl, mulD, BitVec.ofNat_eq_ofNat, BitVec.zero_xor, xtimePow]
  ac_rfl

theorem gmul_fourteen (a : Byte) : gmul a 0x0E = mulE a := by
  rw [gmul_of_setBits (ks := [1, 2, 3]) (by decide)]
  simp only [List.foldl, mulE, BitVec.ofNat_eq_ofNat, BitVec.zero_xor, xtimePow]
  ac_rfl

/-- Settles O41: multiplication by a constant is the sum over the constant's set bits. -/
theorem constantMultiplications : Obligations.ConstantMultiplications := by
  refine ⟨fun a c => ?_, fun a => ⟨gmul_two a, gmul_three a, gmul_nine a, gmul_eleven a, gmul_thirteen a, gmul_fourteen a,
    (gmul_two a).symm, (gmul_three a).symm, (gmul_nine a).symm, (gmul_eleven a).symm, (gmul_thirteen a).symm,
    (gmul_fourteen a).symm⟩, by decide⟩
  rw [gmul_of_setBits rfl]
  simp only [xtimePow_eq_iterate]

/-! ### Bytes and columns of a state -/

theorem blockByte_eq_quadByte (s : Block) (i : Nat) : blockByte s i = quadByte (blockCol s (i / 4)) (i % 4) := by
  rw [blockByte, Nat.shiftRight_eq_div_pow, Nat.and_two_pow_sub_one_eq_mod i 2]

/-- Byte `j` of column `c` (R16). -/
theorem blockByte_column (s : Block) (c : Nat) {j : Nat} (hj : j < 4) :
    blockByte s (4 * c + j) = quadByte (blockCol s c) j := by
  have hdiv : (4 * c + j) / 4 = c := by omega
  have hmod : (4 * c + j) % 4 = j := by omega
  rw [blockByte_eq_quadByte, hdiv, hmod]

theorem quadByte_quadOfFn (f : Nat → Byte) {j : Nat} (hj : j < 4) : quadByte (quadOfFn f) j = f j := by
  interval_cases j <;> rfl

theorem blockCol_blockMapCols (f : Quad → Quad) (s : Block) (c : Nat) :
    blockCol (blockMapCols f s) c = f (blockCol s c) := by
  match c with
  | 0 => rfl
  | 1 => rfl
  | 2 => rfl
  | _ + 3 => rfl

theorem blockCol_roundKey (k : RoundKeys) (r : Nat) {c : Nat} (hc : c < 4) :
    blockCol (roundKey k r) c = k.getD (4 * r + c) quadZero := by
  interval_cases c <;> rfl

/-- Round key `r` is bytes `16r` to `16r + 15` of the image (00_scope.md R19). -/
theorem blockByte_roundKey (k : RoundKeys) (r : Nat) {i : Nat} (hi : i < 16) :
    blockByte (roundKey k r) i = imageByte k (16 * r + i) := by
  have hdiv : (16 * r + i) / 4 = 4 * r + i / 4 := by omega
  have hmod : (16 * r + i) % 4 = i % 4 := by omega
  rw [blockByte_eq_quadByte, blockCol_roundKey k r (by omega), imageByte, hdiv, hmod]

/-! ### The bytewise stages -/

theorem blockByte_subBytes (s : Block) {i : Nat} (hi : i < 16) : blockByte (subBytes s) i = sbox (blockByte s i) :=
  blockByte_blockOfFn _ hi

theorem blockByte_invSubBytes (s : Block) {i : Nat} (hi : i < 16) :
    blockByte (invSubBytes s) i = invSbox (blockByte s i) :=
  blockByte_blockOfFn _ hi

/-- The source index of output byte `i` of ShiftRows, as R111 lists it. -/
def shiftRowsSource (i : Nat) : Nat := [0, 5, 10, 15, 4, 9, 14, 3, 8, 13, 2, 7, 12, 1, 6, 11].getD i 0

/-- The source index of output byte `i` of InvShiftRows, as R115 lists it. -/
def invShiftRowsSource (i : Nat) : Nat := [0, 13, 10, 7, 4, 1, 14, 11, 8, 5, 2, 15, 12, 9, 6, 3].getD i 0

theorem shiftRowsSource_eq : ∀ i < 16, (i + ((i &&& 3) <<< 2)) &&& 0xF = shiftRowsSource i := by decide

theorem invShiftRowsSource_eq : ∀ i < 16, (16 + i - ((i &&& 3) <<< 2)) &&& 0xF = invShiftRowsSource i := by decide

theorem shiftRowsSource_lt : ∀ i < 16, shiftRowsSource i < 16 := by decide

theorem invShiftRowsSource_lt : ∀ i < 16, invShiftRowsSource i < 16 := by decide

theorem shiftRowsSource_invShiftRowsSource : ∀ i < 16, shiftRowsSource (invShiftRowsSource i) = i := by decide

theorem invShiftRowsSource_shiftRowsSource : ∀ i < 16, invShiftRowsSource (shiftRowsSource i) = i := by decide

theorem blockByte_shiftRows (s : Block) {i : Nat} (hi : i < 16) :
    blockByte (shiftRows s) i = blockByte s (shiftRowsSource i) :=
  (blockByte_blockOfFn _ hi).trans (congrArg (blockByte s) (shiftRowsSource_eq i hi))

theorem blockByte_invShiftRows (s : Block) {i : Nat} (hi : i < 16) :
    blockByte (invShiftRows s) i = blockByte s (invShiftRowsSource i) :=
  (blockByte_blockOfFn _ hi).trans (congrArg (blockByte s) (invShiftRowsSource_eq i hi))

theorem blockByte_addRoundKey (s : Block) (k : RoundKeys) (r : Nat) {i : Nat} (hi : i < 16) :
    blockByte (addRoundKey s k r) i = blockByte s i ^^^ imageByte k (16 * r + i) := by
  rw [addRoundKey, blockByte_blockXor, blockByte_roundKey k r hi]

/-- Settles O43: one lemma for each stage. -/
theorem bytewiseStages : Obligations.BytewiseStages := fun s k r _ hi =>
  ⟨blockByte_subBytes s hi, blockByte_invSubBytes s hi, blockByte_shiftRows s hi, blockByte_invShiftRows s hi,
    blockByte_addRoundKey s k r hi⟩

/-! ### The column stages -/

theorem quadByte_mixColumn (a : Quad) {j : Nat} (hj : j < 4) :
    quadByte (mixColumn a) j = gmul (quadByte a j) 2 ^^^ gmul (quadByte a ((j + 1) % 4)) 3 ^^^
      quadByte a ((j + 2) % 4) ^^^ quadByte a ((j + 3) % 4) := by
  rw [mixColumn, quadByte_quadOfFn _ hj, gmul_two, gmul_three]

theorem quadByte_invMixColumn (a : Quad) {j : Nat} (hj : j < 4) :
    quadByte (invMixColumn a) j = gmul (quadByte a j) 0x0E ^^^ gmul (quadByte a ((j + 1) % 4)) 0x0B ^^^
      gmul (quadByte a ((j + 2) % 4)) 0x0D ^^^ gmul (quadByte a ((j + 3) % 4)) 0x09 := by
  rw [invMixColumn, quadByte_quadOfFn _ hj, gmul_fourteen, gmul_eleven, gmul_thirteen, gmul_nine]

theorem blockByte_mixColumns (s : Block) (c : Nat) {j : Nat} (hj : j < 4) :
    blockByte (mixColumns s) (4 * c + j) = quadByte (mixColumn (blockCol s c)) j := by
  rw [blockByte_column _ c hj, mixColumns, blockCol_blockMapCols]

theorem blockByte_invMixColumns (s : Block) (c : Nat) {j : Nat} (hj : j < 4) :
    blockByte (invMixColumns s) (4 * c + j) = quadByte (invMixColumn (blockCol s c)) j := by
  rw [blockByte_column _ c hj, invMixColumns, blockCol_blockMapCols]

/-- Settles O44: byte `j` of column `c` after a column stage is byte `j` of the mixed column `c`. -/
theorem columnMixing : Obligations.ColumnMixing := by
  refine ⟨fun s c _ j hj => ?_, by decide, by decide⟩
  have hbyte (n : Nat) : blockByte s (4 * c + (j + n) % 4) = quadByte (blockCol s c) ((j + n) % 4) :=
    blockByte_column s c (Nat.mod_lt _ (by decide))
  intro a
  simp only [a, hbyte]
  rw [Nat.add_zero, Nat.mod_eq_of_lt hj]
  exact ⟨(blockByte_mixColumns s c hj).trans (quadByte_mixColumn _ hj),
    (blockByte_invMixColumns s c hj).trans (quadByte_invMixColumn _ hj)⟩

/-! ### The inverse laws of the column stages

Mixing a column twice adds four times the difference of opposite bytes, so four mixings cancel; and InvMixColumns is three
mixings. No product reaches degree 8 on the way, so only the additivity of doubling is needed. -/

theorem byte_xor_left_comm (a b c : Byte) : a ^^^ (b ^^^ c) = b ^^^ (a ^^^ c) := by
  rw [← BitVec.xor_assoc, BitVec.xor_comm a b, BitVec.xor_assoc]

theorem byte_xor_cancel_left (a b : Byte) : a ^^^ (a ^^^ b) = b := by
  rw [← BitVec.xor_assoc, BitVec.xor_self, BitVec.zero_xor]

theorem xtime_xor (a b : Byte) : xtime (a ^^^ b) = xtime a ^^^ xtime b := by
  have hcarry : (if (a ^^^ b).getLsbD 7 then 0x1B#8 else 0x00#8) =
      (if a.getLsbD 7 then 0x1B#8 else 0x00#8) ^^^ (if b.getLsbD 7 then 0x1B#8 else 0x00#8) := by
    rw [BitVec.getLsbD_xor]
    cases a.getLsbD 7 <;> cases b.getLsbD 7 <;> rfl
  rw [xtime, hcarry, BitVec.shiftLeft_xor_distrib, xtime, xtime]
  ac_rfl

/-- One byte of a mixed column (R112), from the byte itself and those after it in turn. -/
def mixByte (a b c d : Byte) : Byte := mul2 a ^^^ mul3 b ^^^ c ^^^ d

/-- One byte of an inversely mixed column (R116), likewise. -/
def invMixByte (a b c d : Byte) : Byte := mulE a ^^^ mulB b ^^^ mulD c ^^^ mul9 d

theorem mixColumn_mk (a b c d : Byte) :
    mixColumn ⟨a, b, c, d⟩ = ⟨mixByte a b c d, mixByte b c d a, mixByte c d a b, mixByte d a b c⟩ := rfl

theorem invMixColumn_mk (a b c d : Byte) :
    invMixColumn ⟨a, b, c, d⟩ = ⟨invMixByte a b c d, invMixByte b c d a, invMixByte c d a b, invMixByte d a b c⟩ := rfl

/-- Byte `p` of a column mixed twice, `q` being the byte opposite to it. -/
def mixTwice (p q : Byte) : Byte := p ^^^ xtime (xtime (p ^^^ q))

theorem mixByte_mixByte (a b c d : Byte) :
    mixByte (mixByte a b c d) (mixByte b c d a) (mixByte c d a b) (mixByte d a b c) = mixTwice a c := by
  simp only [mixByte, mixTwice, mul2, mul3, xtime_xor, BitVec.xor_assoc, BitVec.xor_comm, byte_xor_left_comm,
    byte_xor_cancel_left]

theorem mixByte_mixTwice (a b c d : Byte) :
    mixByte (mixTwice a c) (mixTwice b d) (mixTwice c a) (mixTwice d b) = invMixByte a b c d := by
  simp only [mixByte, invMixByte, mixTwice, mul2, mul3, mul9, mulB, mulD, mulE, xtimePow, xtime_xor, BitVec.xor_assoc,
    BitVec.xor_comm, byte_xor_left_comm, byte_xor_cancel_left]

theorem mixTwice_mixTwice (p q : Byte) : mixTwice (mixTwice p q) (mixTwice q p) = p := by
  have hdiff : mixTwice p q ^^^ mixTwice q p = p ^^^ q := by
    rw [mixTwice, mixTwice, BitVec.xor_comm q p, BitVec.xor_assoc, BitVec.xor_comm q, ← BitVec.xor_assoc (xtime _),
      BitVec.xor_self, BitVec.zero_xor]
  rw [mixTwice, hdiff, mixTwice, BitVec.xor_assoc, BitVec.xor_self, BitVec.xor_zero]

theorem mixColumn_mixColumn (a b c d : Byte) :
    mixColumn (mixColumn ⟨a, b, c, d⟩) = ⟨mixTwice a c, mixTwice b d, mixTwice c a, mixTwice d b⟩ := by
  simp only [mixColumn_mk, mixByte_mixByte]

theorem mixColumn_four_times (a : Quad) : mixColumn (mixColumn (mixColumn (mixColumn a))) = a := by
  obtain ⟨a, b, c, d⟩ := a
  simp only [mixColumn_mixColumn, mixTwice_mixTwice]

theorem invMixColumn_eq_mixColumn_three_times (a : Quad) : invMixColumn a = mixColumn (mixColumn (mixColumn a)) := by
  obtain ⟨a, b, c, d⟩ := a
  rw [mixColumn_mixColumn a b c d, mixColumn_mk, invMixColumn_mk]
  simp only [mixByte_mixTwice]

theorem invMixColumn_mixColumn (a : Quad) : invMixColumn (mixColumn a) = a := by
  rw [invMixColumn_eq_mixColumn_three_times, mixColumn_four_times]

theorem mixColumn_invMixColumn (a : Quad) : mixColumn (invMixColumn a) = a := by
  rw [invMixColumn_eq_mixColumn_three_times, mixColumn_four_times]

theorem blockMapCols_cancel {f g : Quad → Quad} (h : ∀ a, f (g a) = a) (s : Block) :
    blockMapCols f (blockMapCols g s) = s := by
  simp only [blockMapCols, h]

/-! ### The inverse laws of the stages -/

@[simp] theorem invSubBytes_subBytes (s : Block) : invSubBytes (subBytes s) = s :=
  block_ext_byte fun i hi => by rw [blockByte_invSubBytes _ hi, blockByte_subBytes s hi, invSbox_sbox]

@[simp] theorem subBytes_invSubBytes (s : Block) : subBytes (invSubBytes s) = s :=
  block_ext_byte fun i hi => by rw [blockByte_subBytes _ hi, blockByte_invSubBytes s hi, sbox_invSbox]

@[simp] theorem invShiftRows_shiftRows (s : Block) : invShiftRows (shiftRows s) = s :=
  block_ext_byte fun i hi => by
    rw [blockByte_invShiftRows _ hi, blockByte_shiftRows s (invShiftRowsSource_lt i hi),
      shiftRowsSource_invShiftRowsSource i hi]

@[simp] theorem shiftRows_invShiftRows (s : Block) : shiftRows (invShiftRows s) = s :=
  block_ext_byte fun i hi => by
    rw [blockByte_shiftRows _ hi, blockByte_invShiftRows s (shiftRowsSource_lt i hi),
      invShiftRowsSource_shiftRowsSource i hi]

@[simp] theorem invMixColumns_mixColumns (s : Block) : invMixColumns (mixColumns s) = s :=
  blockMapCols_cancel invMixColumn_mixColumn s

@[simp] theorem mixColumns_invMixColumns (s : Block) : mixColumns (invMixColumns s) = s :=
  blockMapCols_cancel mixColumn_invMixColumn s

@[simp] theorem addRoundKey_addRoundKey (s : Block) (k : RoundKeys) (r : Nat) :
    addRoundKey (addRoundKey s k r) k r = s :=
  blockXor_cancel_right s (roundKey k r)

/-- Settles O45: one law for each stage and order. -/
theorem inverseStageLaws : Obligations.InverseStageLaws := fun s =>
  ⟨invSubBytes_subBytes s, subBytes_invSubBytes s, invShiftRows_shiftRows s, shiftRows_invShiftRows s,
    invMixColumns_mixColumns s, mixColumns_invMixColumns s, addRoundKey_addRoundKey s⟩

end Sys2Proof.Machine

/-! The key-schedule family: what KEYEXP loads and when it fails, the words of an expansion, the tweak and the round constants
(41_key_schedule.md R130 to R142), and the frame of every command. -/

namespace Sys2Proof.Machine

/-! ### The frame of a command -/

/-- ENCB and DECB write DBUF only, and there only their block (R150, R151). -/
theorem transformed_writes (f : Block → Block) (b : Nat) (s : State) :
    transformed f b s = { s with dbuf := (transformed f b s).dbuf } ∧
      SameOutside s.dbuf (transformed f b s).dbuf (blockOffset b) 16 := by
  rw [transformed_dbuf]
  exact ⟨by rw [transformed], sameOutside_writeBlock _ _ _⟩

/-- Settles O33: a command that fails changes only ERR, BUSY and DONE; the effect of one that succeeds writes what its law says,
and what its loop and its pad keep bounds the bytes of DBUF. -/
theorem commandFrames : Obligations.CommandFrames := by
  intro i s t h
  rcases exec_eq_next h with ⟨e, -, rfl⟩ | ⟨u, rfl, he⟩
  · refine ⟨rfl, rfl, ?_⟩
    cases i with
    | nop | keyexp => rfl
    | encb | decb | cbcenc | cbcdec | mac => exact ⟨rfl, fun _ _ => rfl⟩
  · refine ⟨rfl, rfl, ?_⟩
    cases i with
    | nop =>
      obtain rfl : u = s := he
      rfl
    | keyexp =>
      obtain ⟨-, rfl⟩ := he
      rfl
    | encb | decb =>
      obtain ⟨-, -, -, hu⟩ := he
      obtain ⟨hwrites, houtside⟩ := transformed_writes _ _ s
      rw [← hu] at hwrites houtside
      exact ⟨congrArg (completeWith .none) hwrites, houtside⟩
    | cbcenc =>
      obtain ⟨-, -, hok⟩ := he
      obtain ⟨hwrites, hkeeps⟩ := cbcEncrypt_eq_ok hok
      have hlen : u.len = BitVec.ofNat 32 (s.len.toNat + padCount s.len.toNat) := congrArg State.len hwrites
      rw [← hlen] at hwrites
      exact ⟨congrArg (completeWith .none) hwrites, hkeeps.outside⟩
    | cbcdec =>
      obtain ⟨-, -, hmod, -, hok⟩ := he
      obtain ⟨hwrites, hkeeps⟩ := cbcDecrypt_eq_ok hok
      rw [Nat.mul_div_cancel' (Nat.dvd_of_mod_eq_zero hmod)] at hkeeps
      exact ⟨congrArg (completeWith .none) hwrites, hkeeps.outside⟩
    | mac =>
      obtain ⟨-, hok⟩ := he
      have hwrites := macEffect_eq_ok hok
      have hpad := (keepsBuffer_macPad s.len.toNat s.dbuf).outside
      have hdbuf : u.dbuf = macPad s.len.toNat s.dbuf := congrArg State.dbuf hwrites
      rw [← hdbuf] at hwrites hpad
      exact ⟨congrArg (completeWith .none) hwrites, hpad⟩

/-! ### What KEYEXP does -/

theorem exec_keyexp_of_supported {nk : Nat} (h : supportedNk nk) (tweak : Bool) (s : State) :
    exec (.keyexp tweak nk) s = finish (loadContext (keyExpand ((keyQuads s).take nk) nk tweak) tweak s) :=
  if_pos h

/-- KEY holds every supported key (R130). -/
theorem take_keyQuads_length {nk : Nat} (hs : supportedNk nk) (s : State) : ((keyQuads s).take nk).length = nk := by
  rw [List.length_take, keyQuads_length, Nat.min_eq_left (supportedNk_bounds hs).2]

/-- The four bits of STATUS.NR hold every round count (R138). -/
theorem nr_loadContext_keyExpand {nk : Nat} (hs : supportedNk nk) (key : List Quad) (tweak : Bool) (s : State) :
    (loadContext (keyExpand key nk tweak) tweak s).nr.toNat = nk + 6 := by
  have hnk := supportedNk_bounds hs
  rw [loadContext_nr, keyExpand, BitVec.toNat_ofNat, Nat.mod_eq_of_lt (by omega)]

/-- Settles O35: the next state is the completion of the loaded context. -/
theorem keyexpBuildsContext : Obligations.KeyexpBuildsContext := by
  intro tweak nk s hs
  have hload : contextKeys (loadContext (keyExpand ((keyQuads s).take nk) nk tweak) tweak s) =
      (keyExpand ((keyQuads s).take nk) nk tweak).1 :=
    contextKeys_loadContext tweak (take_keyQuads_length hs s).ge hs s
  exact ⟨_, exec_keyexp_of_supported hs tweak s, fun b _ => congrArg (imageByte · b) hload,
    nr_loadContext_keyExpand hs _ tweak s, rfl, rfl, rfl⟩

theorem mem_iff_supportedNk {nk : Nat} : nk ∈ [4, 5, 6, 8] ↔ supportedNk nk := by
  simp [supportedNk]

/-- Settles O36: the check of KEYEXP is `supportedNk`. -/
theorem keyLengthCheck : Obligations.KeyLengthCheck := by
  intro tweak nk s
  rw [mem_iff_supportedNk]
  exact ⟨fun h => exec_keyexp_of_unsupported h tweak s, fun h => ⟨_, exec_keyexp_of_supported h tweak s, rfl⟩⟩

/-! ### The words of an expansion -/

section Words

variable {key : List Quad} {nk i : Nat}

/-- Word `i` of an untweaked image is W[i]; where there is none, both read zero (R137). -/
theorem getD_keyExpand_false :
    (keyExpand key nk false).1.getD i quadZero = (keyWords key nk).getD i quadZero := by
  simp only [keyExpand, Bool.false_eq_true, if_false]
  by_cases hi : i < (keyWords key nk).length
  · exact List.getD_append _ _ _ _ hi
  · rw [List.getD_append_right _ _ _ _ (by omega), List.getD_eq_default (keyWords key nk) _ (by omega),
      List.getD_eq_getElem?_getD, List.getElem?_getD_replicate_default_eq]

/-- The first words are the key's (R133). -/
theorem getD_keyWords_of_lt (hkey : key.length = nk) (hi : i < nk) :
    (keyWords key nk).getD i quadZero = key.getD i quadZero := by
  rw [keyWords, List.take_of_length_le hkey.le, extendWords_getD_of_lt _ _ _ _ (by simpa [hkey] using hi),
    List.reverse_reverse]

/-- The words after them follow the recurrence (R133). -/
theorem getD_keyWords_of_ge (hs : supportedNk nk) (hkey : key.length = nk) (hi : nk ≤ i) (hi' : i < 4 * (nk + 7)) :
    (keyWords key nk).getD i quadZero =
      scheduleWord nk i ((keyWords key nk).getD (i - 1) quadZero) ((keyWords key nk).getD (i - nk) quadZero) := by
  have hnk := supportedNk_bounds hs
  have hlen : (key.take nk).reverse.length = nk := by simp [hkey]
  exact extendWords_getD nk _ _ i (by omega) hlen.ge (hlen.trans_le hi) (by unfold roundKeyWords; omega)

end Words

/-- Settles O37: the key's words, the recurrence, and zeros, by the position of the word. -/
theorem keyScheduleRecurrence : Obligations.KeyScheduleRecurrence := by
  intro key nk hs hkey
  refine ⟨rfl, keyExpand_length false hkey.ge hs, fun i _ => ?_⟩
  simp only [getD_keyExpand_false]
  obtain hfirst | hrest := lt_or_ge i nk
  · rw [if_pos hfirst, getD_keyWords_of_lt hkey hfirst]
  rw [if_neg hrest.not_gt]
  obtain hword | hbeyond := lt_or_ge i (4 * (nk + 7))
  · rw [if_pos hword, getD_keyWords_of_ge hs hkey hrest hword]
    rfl
  · rw [if_neg hbeyond.not_gt, ← getD_keyExpand_false, keyExpand_beyond false hkey.ge hs hbeyond]

/-- Settles O39: the four expansions are evaluated. -/
theorem keyScheduleExamples : Obligations.KeyScheduleExamples := by
  refine ⟨?_, ?_, ?_, ?_⟩ <;> decide +kernel

/-! ### The tweak -/

/-- The three bytes the tweak adds, at three different offsets (R136). -/
theorem imageByte_applyTweak {k : RoundKeys} (hk : k.length = 60) (b : Nat) :
    imageByte (applyTweak k) b = imageByte k b ^^^
      (if b = 64 then 0x73 else if b = 96 then 0x09 else if b = 128 then 0xE4 else 0) := by
  rw [applyTweak, imageByte_xorImageByte _ _ _ (by simp [hk]), imageByte_xorImageByte _ _ _ (by simp [hk]),
    imageByte_xorImageByte _ _ _ (by simp [hk]), BitVec.xor_assoc, BitVec.xor_assoc]
  congr 1
  obtain rfl | h64 := eq_or_ne b 64
  · rfl
  obtain rfl | h96 := eq_or_ne b 96
  · rfl
  simp [h64, h96]

/-- Settles O38: the tweaked image is the untweaked one with the three bytes added. -/
theorem tweakChangesThreeBytes : Obligations.TweakChangesThreeBytes := by
  intro key nk hs hkey
  have hnk := supportedNk_bounds hs
  exact ⟨by omega, fun b _ => imageByte_applyTweak (keyExpand_length false hkey.ge hs) b⟩

/-! ### The round constants -/

/-- The step without a constant, and the constant added to the first byte (R132). -/
theorem rotSub_eq_quadXor (j : Nat) (t : Quad) : rotSub j t = quadXor (rotSub 0 t) ⟨rcon j, 0x00, 0x00, 0x00⟩ := by
  simp [rotSub, quadXor, rcon]

/-- Settles O42: the table is evaluated, and the recurrence is that of `rcon` from index 1 on. -/
theorem roundConstants : Obligations.RoundConstants := by
  refine ⟨by decide, fun j hj => ?_, rotSub_eq_quadXor⟩
  obtain ⟨n, rfl⟩ := Nat.exists_eq_add_of_le' hj
  rfl

end Sys2Proof.Machine

/-! The block-transform family: the two transforms as inverses that read only their round keys, what ENCB and DECB do,
the context and range checks, and the spec's examples of Cipher (42_block_transforms.md R150 to R160). -/

namespace Sys2Proof.Machine

/-! ### The round trip

Cut before each AddRoundKey instead of after it, the rounds of Cipher are undone one by one by those of InvCipher. -/

/-- What `invCipherRound k r` undoes: from the state before MixColumns of round `r`, which round 0 does not have, to that of
round `r + 1`. -/
def forwardRound (k : RoundKeys) (r : Nat) (s : Block) : Block :=
  shiftRows (subBytes (addRoundKey (if r = 0 then s else mixColumns s) k r))

theorem invCipherRound_forwardRound (k : RoundKeys) (r : Nat) (s : Block) :
    invCipherRound k r (forwardRound k r s) = s := by
  by_cases hr : r = 0 <;> simp [invCipherRound, forwardRound, hr]

theorem forwardRound_invCipherRound (k : RoundKeys) (r : Nat) (s : Block) :
    forwardRound k r (invCipherRound k r s) = s := by
  by_cases hr : r = 0 <;> simp [invCipherRound, forwardRound, hr]

/-- Before its last round, Cipher is one MixColumns and one AddRoundKey ahead of `forwardRound`. -/
theorem foldl_cipherRound_of_lt {k : RoundKeys} {nr n : Nat} (hn : n < nr) (b : Block) :
    (List.range n).foldl (fun s m => cipherRound k nr (m + 1) s) (addRoundKey b k 0) =
      let u := (List.range n).foldl (fun s r => forwardRound k r s) b
      addRoundKey (if n = 0 then u else mixColumns u) k n := by
  induction n with
  | zero => rfl
  | succ n ih =>
    simp only [List.range_succ, List.foldl_append, List.foldl_cons, List.foldl_nil, ih (by omega)]
    rw [cipherRound, if_neg hn.ne, if_neg n.succ_ne_zero, forwardRound]

theorem cipher_eq_foldl_forwardRound (k : RoundKeys) (nr : Nat) (b : Block) :
    cipher k nr b = addRoundKey ((List.range nr).foldl (fun s r => forwardRound k r s) b) k nr := by
  cases nr with
  | zero => rfl
  | succ n =>
    simp only [cipher, List.range_succ, List.foldl_append, List.foldl_cons, List.foldl_nil,
      foldl_cipherRound_of_lt n.lt_succ_self]
    rw [cipherRound, if_pos rfl, forwardRound]

/-- Steps undone in the opposite order. -/
theorem foldl_reverse_foldl_cancel {α β : Type} {f g : α → β → β} (h : ∀ a x, g a (f a x) = x) (l : List α) (x : β) :
    l.reverse.foldl (fun y a => g a y) (l.foldl (fun y a => f a y) x) = x := by
  induction l generalizing x with
  | nil => rfl
  | cons a l ih => rw [List.foldl_cons, List.reverse_cons, List.foldl_append, ih, List.foldl_cons, List.foldl_nil, h]

theorem invCipher_cipher (k : RoundKeys) (nr : Nat) (b : Block) : invCipher k nr (cipher k nr b) = b := by
  rw [cipher_eq_foldl_forwardRound, invCipher, addRoundKey_addRoundKey]
  exact foldl_reverse_foldl_cancel (invCipherRound_forwardRound k) _ b

theorem cipher_invCipher (k : RoundKeys) (nr : Nat) (b : Block) : cipher k nr (invCipher k nr b) = b := by
  have hundo := foldl_reverse_foldl_cancel (forwardRound_invCipherRound k) (List.range nr).reverse (addRoundKey b k nr)
  rw [List.reverse_reverse] at hundo
  rw [cipher_eq_foldl_forwardRound, invCipher, hundo, addRoundKey_addRoundKey]

/-- Settles O46: each round of one transform undoes a round of the other. -/
theorem cipherRoundTrip : Obligations.CipherRoundTrip := fun k nr b => ⟨invCipher_cipher k nr b, cipher_invCipher k nr b⟩

/-! ### The round keys a transform reads -/

section SameRoundKeys

variable {k k' : RoundKeys} {r : Nat}

theorem roundKey_congr (h : ∀ i < 16, imageByte k (16 * r + i) = imageByte k' (16 * r + i)) :
    roundKey k r = roundKey k' r :=
  block_ext_byte fun i hi => by rw [blockByte_roundKey k r hi, blockByte_roundKey k' r hi, h i hi]

theorem addRoundKey_congr (h : roundKey k r = roundKey k' r) (s : Block) : addRoundKey s k r = addRoundKey s k' r :=
  congrArg (blockXor s) h

theorem cipherRound_congr (h : roundKey k r = roundKey k' r) (nr : Nat) (s : Block) :
    cipherRound k nr r s = cipherRound k' nr r s :=
  addRoundKey_congr h _

theorem invCipherRound_congr (h : roundKey k r = roundKey k' r) (s : Block) :
    invCipherRound k r s = invCipherRound k' r s := by
  rw [invCipherRound, invCipherRound, addRoundKey_congr h]

end SameRoundKeys

theorem cipher_congr {k k' : RoundKeys} {nr : Nat} (h : ∀ r ≤ nr, roundKey k r = roundKey k' r) (b : Block) :
    cipher k nr b = cipher k' nr b := by
  rw [cipher, cipher, addRoundKey_congr (h 0 nr.zero_le)]
  exact List.foldl_ext _ _ _ fun s n hn => cipherRound_congr (h (n + 1) (List.mem_range.mp hn)) nr s

theorem invCipher_congr {k k' : RoundKeys} {nr : Nat} (h : ∀ r ≤ nr, roundKey k r = roundKey k' r) (b : Block) :
    invCipher k nr b = invCipher k' nr b := by
  rw [invCipher, invCipher, addRoundKey_congr (h nr le_rfl)]
  exact List.foldl_ext _ _ _ fun s r hr =>
    invCipherRound_congr (h r (List.mem_range.mp (List.mem_reverse.mp hr)).le) s

/-- Settles O47: images that agree on those bytes have the same round keys 0 to Nr, and no round uses another. -/
theorem transformsReadOnlyRoundKeys : Obligations.TransformsReadOnlyRoundKeys := by
  intro k k' nr b h
  have hkeys : ∀ r ≤ nr, roundKey k r = roundKey k' r := fun r hr => roundKey_congr fun i hi => h _ (by omega)
  exact ⟨cipher_congr hkeys b, invCipher_congr hkeys b⟩

/-! ### ENCB and DECB -/

/-- A block transform that completes: its block is transformed, and nothing else changes but ERR, BUSY and DONE (R150, R151). -/
theorem transformBlock_completes (f : Block → Block) {b : Nat} {s : State} (hc : s.ctxv = true)
    (hr : 16 * b + 16 ≤ s.cfg.dbufBytes) (hw : Written s.dbuf (16 * b) 16) :
    ∃ t, transformBlock f b s = .next t ∧
      t = { s with dbuf := t.dbuf, err := .none, inflight := none, done := true } ∧
      Written t.dbuf (16 * b) 16 ∧ blockAt t.dbuf (16 * b) = f (blockAt s.dbuf (16 * b)) ∧
      SameOutside s.dbuf t.dbuf (16 * b) 16 := by
  have hnext := transformBlock_of_written (f := f) hc hr hw
  obtain ⟨hwrites, houtside⟩ := transformed_writes f b s
  have hdbuf := transformed_dbuf f b s
  generalize transformed f b s = u at hnext hwrites houtside hdbuf
  refine ⟨completeWith .none u, hnext, congrArg (completeWith .none) hwrites, ?_, ?_, houtside⟩
  · rw [completeWith_dbuf, hdbuf]
    exact written_writeBlock_self _ _ _
  · rw [completeWith_dbuf, hdbuf]
    exact blockAt_writeBlock_self _ _ _

/-- Settles O49: ENCB is the block transform with Cipher. -/
theorem encbEncryptsBlock : Obligations.EncbEncryptsBlock := fun _ _ hc hr hw => transformBlock_completes _ hc hr hw

/-- Settles O50: DECB is the block transform with InvCipher. -/
theorem decbDecryptsBlock : Obligations.DecbDecryptsBlock := fun _ _ hc hr hw => transformBlock_completes _ hc hr hw

/-! ### The checks -/

theorem transformBlock_of_noContext {s : State} (h : s.ctxv = false) (f : Block → Block) (b : Nat) :
    transformBlock f b s = raiseError .noContext s :=
  if_pos h

theorem transformBlock_of_outOfRange {b : Nat} {s : State} (hc : s.ctxv = true) (hr : 16 * b + 16 > s.cfg.dbufBytes)
    (f : Block → Block) : transformBlock f b s = raiseError .range s :=
  (if_neg (ne_false_of_eq_true hc)).trans (if_pos hr)

theorem execCbcenc_of_noContext {s : State} (h : s.ctxv = false) (iven : Bool) :
    execCbcenc iven s = raiseError .noContext s :=
  if_pos h

theorem execCbcdec_of_noContext {s : State} (h : s.ctxv = false) (iven : Bool) :
    execCbcdec iven s = raiseError .noContext s :=
  if_pos h

/-- The only check of MAC is that of the capacity (R191, R195). -/
theorem execMac_err {s t : State} (h : execMac s = .next t) : t.err = .bufferTooSmall ∨ t.err = .none := by
  unfold execMac at h
  split_ifs at h
  · exact .inl (congrArg State.err (raiseError_eq_next.mp h))
  · obtain ⟨u, -, rfl⟩ := finishWith_eq_next.mp h
    exact .inr rfl

/-- Settles O51: a failed check answers `raiseError`, and MAC has no context check. -/
theorem contextAndRangeChecks : Obligations.ContextAndRangeChecks := by
  refine ⟨fun s hc i hi => ?_, fun s b hc hr =>
    ⟨transformBlock_of_outOfRange hc hr _, transformBlock_of_outOfRange hc hr _⟩, fun s t h => ?_⟩
  · rcases hi with ⟨b, rfl | rfl⟩ | ⟨iven, rfl | rfl⟩
    · exact transformBlock_of_noContext hc _ b
    · exact transformBlock_of_noContext hc _ b
    · exact execCbcenc_of_noContext hc iven
    · exact execCbcdec_of_noContext hc iven
  · rcases execMac_err h with herr | herr <;> simp [herr]

/-! ### The examples

An encryption is evaluated a few rounds at a time: the rounds are nested, and all at once they are too deep to evaluate. -/

/-- Rounds `m + 1` to `m + l` of Cipher. -/
def cipherRounds (k : RoundKeys) (nr m l : Nat) (s : Block) : Block :=
  (List.range' m l).foldl (fun s n => cipherRound k nr (n + 1) s) s

theorem cipher_eq_cipherRounds (k : RoundKeys) (nr : Nat) (b : Block) :
    cipher k nr b = cipherRounds k nr 0 nr (addRoundKey b k 0) := by
  rw [cipher, List.range_eq_range', cipherRounds]

section Cuts

variable {k : RoundKeys} {nr m l : Nat} {b s u c : Block}

/-- Consecutive rounds by way of the state `u` after the first `p` of them. -/
theorem cipherRounds_of_cut (p q : Nat) (hl : p + q = l) (hu : cipherRounds k nr m p s = u)
    (hc : cipherRounds k nr (m + p) q u = c) : cipherRounds k nr m l s = c := by
  rw [← hc, ← hu, ← hl, cipherRounds, ← List.range'_append_1, List.foldl_append, cipherRounds, cipherRounds]

theorem cipher_of_cut (p q : Nat) (hnr : p + q = nr) (hu : cipherRounds k nr 0 p (addRoundKey b k 0) = u)
    (hc : cipherRounds k nr p q u = c) : cipher k nr b = c := by
  rw [cipher_eq_cipherRounds]
  exact cipherRounds_of_cut p q hnr hu (by rwa [Nat.zero_add])

end Cuts

/-- Settles O48: each encryption is evaluated from one middle state to the next, and the first round stage by stage. -/
theorem cipherExamples : Obligations.CipherExamples := by
  refine ⟨?_, ?_, ?_, ?_, ?_, ?_, by decide⟩
  · exact cipher_of_cut 5 5
      (u := ⟨⟨0xc8, 0x16, 0x77, 0xbc⟩, ⟨0x9b, 0x7a, 0xc9, 0x3b⟩, ⟨0x25, 0x02, 0x79, 0x92⟩, ⟨0xb0, 0x26, 0x19, 0x96⟩⟩)
      rfl (by decide) (by decide)
  · exact cipher_of_cut 5 5
      (u := ⟨⟨0xd4, 0x6f, 0x4f, 0x6c⟩, ⟨0x55, 0xb8, 0x96, 0x33⟩, ⟨0x7e, 0x05, 0xbb, 0x3d⟩, ⟨0x79, 0x79, 0xde, 0x23⟩⟩)
      rfl (by decide) (by decide)
  · exact cipher_of_cut 5 5
      (u := ⟨⟨0x12, 0x7b, 0x1a, 0x0b⟩, ⟨0x9b, 0x7a, 0xc9, 0x3b⟩, ⟨0x25, 0x02, 0x79, 0x92⟩, ⟨0xb0, 0x26, 0x19, 0x96⟩⟩)
      rfl (by decide) (by decide)
  · exact cipher_of_cut 6 5
      (u := ⟨⟨0x0c, 0x3e, 0x38, 0x6a⟩, ⟨0x3d, 0x98, 0xa7, 0xca⟩, ⟨0x0e, 0x3f, 0xa6, 0x1c⟩, ⟨0x70, 0x58, 0xd3, 0x29⟩⟩)
      rfl (by decide) (by decide)
  · exact cipher_of_cut 6 6
      (u := ⟨⟨0x67, 0x1e, 0xf1, 0xfd⟩, ⟨0x4e, 0x2a, 0x1e, 0x03⟩, ⟨0xdf, 0xdc, 0xb1, 0xef⟩, ⟨0x3d, 0x78, 0x9b, 0x30⟩⟩)
      rfl (by decide) (by decide)
  · exact cipher_of_cut 5 9
      (u := ⟨⟨0x71, 0x48, 0x2d, 0xf2⟩, ⟨0x07, 0x1e, 0x7b, 0x25⟩, ⟨0x84, 0xbb, 0xf5, 0xb6⟩, ⟨0x09, 0xc0, 0xc9, 0xb9⟩⟩)
      rfl (by decide) (cipherRounds_of_cut 5 4
        (u := ⟨⟨0x00, 0xfc, 0x95, 0xf7⟩, ⟨0x87, 0xc0, 0x93, 0xf7⟩, ⟨0xa2, 0x35, 0x8b, 0xea⟩, ⟨0xd5, 0xbb, 0x98, 0x4b⟩⟩)
        rfl (by decide) (by decide))

end Sys2Proof.Machine

/-! The CBC family: the checks of CBCENC, CBCDEC and MAC, the two chained transforms block by block, their round trip, and the IV
that is zero (43_cbc.md R170 to R180, 44_mac.md R191). -/

namespace Sys2Proof.Machine

/-! ### The checks, and the effect of a command that passes them -/

theorem raiseError_err {e : ErrCode} {s t : State} (h : raiseError e s = .next t) : t.err = e := by
  rw [raiseError_eq_next.mp h, completeWith_err]

theorem finishWith_err {r : Except Fault State} {t : State} (h : finishWith r = .next t) : t.err = .none := by
  obtain ⟨u, -, rfl⟩ := finishWith_eq_next.mp h
  exact completeWith_err _ _

section Checks

variable {s : State}

theorem execCbcenc_of_tooLong (hc : s.ctxv = true) (hlen : s.len.toNat + 16 > s.cfg.dbufBytes) (iven : Bool) :
    execCbcenc iven s = raiseError .bufferTooSmall s :=
  (if_neg (ne_false_of_eq_true hc)).trans (if_pos hlen)

theorem execCbcenc_of_fits (hc : s.ctxv = true) (hlen : s.len.toNat + 16 ≤ s.cfg.dbufBytes) (iven : Bool) :
    execCbcenc iven s = finishWith (cbcEncrypt iven s) :=
  (if_neg (ne_false_of_eq_true hc)).trans (if_neg hlen.not_gt)

theorem execMac_of_tooLong (hlen : s.len.toNat + 16 > s.cfg.dbufBytes) : execMac s = raiseError .bufferTooSmall s :=
  if_pos hlen

theorem execMac_of_fits (hlen : s.len.toNat + 16 ≤ s.cfg.dbufBytes) : execMac s = finishWith (macEffect s) :=
  if_neg hlen.not_gt

theorem execCbcdec_of_partialBlock (hc : s.ctxv = true) (hlen : s.len.toNat = 0 ∨ s.len.toNat % 16 ≠ 0) (iven : Bool) :
    execCbcdec iven s = raiseError .invalidLength s :=
  (if_neg (ne_false_of_eq_true hc)).trans (if_pos hlen)

variable (hpos : s.len.toNat ≠ 0) (hmod : s.len.toNat % 16 = 0)
include hpos hmod

theorem execCbcdec_of_wholeBlocks (hc : s.ctxv = true) (iven : Bool) :
    execCbcdec iven s =
      if s.len.toNat > s.cfg.dbufBytes then raiseError .bufferTooSmall s else finishWith (cbcDecrypt iven s) :=
  (if_neg (ne_false_of_eq_true hc)).trans (if_neg (by simp [hpos, hmod]))

theorem execCbcdec_of_tooLong (hc : s.ctxv = true) (hlen : s.len.toNat > s.cfg.dbufBytes) (iven : Bool) :
    execCbcdec iven s = raiseError .bufferTooSmall s :=
  (execCbcdec_of_wholeBlocks hpos hmod hc iven).trans (if_pos hlen)

theorem execCbcdec_of_fits (hc : s.ctxv = true) (hlen : s.len.toNat ≤ s.cfg.dbufBytes) (iven : Bool) :
    execCbcdec iven s = finishWith (cbcDecrypt iven s) :=
  (execCbcdec_of_wholeBlocks hpos hmod hc iven).trans (if_neg hlen.not_gt)

end Checks

theorem execCbcenc_err_of_fits {iven : Bool} {s t : State} (hlen : s.len.toNat + 16 ≤ s.cfg.dbufBytes)
    (h : execCbcenc iven s = .next t) : t.err = .noContext ∨ t.err = .none := by
  cases hc : s.ctxv with
  | false => exact .inl (raiseError_err ((execCbcenc_of_noContext hc iven).symm.trans h))
  | true => exact .inr (finishWith_err ((execCbcenc_of_fits hc hlen iven).symm.trans h))

theorem execCbcdec_err_of_fits {iven : Bool} {s t : State} (hpos : s.len.toNat ≠ 0) (hmod : s.len.toNat % 16 = 0)
    (hlen : s.len.toNat ≤ s.cfg.dbufBytes) (h : execCbcdec iven s = .next t) : t.err = .noContext ∨ t.err = .none := by
  cases hc : s.ctxv with
  | false => exact .inl (raiseError_err ((execCbcdec_of_noContext hc iven).symm.trans h))
  | true => exact .inr (finishWith_err ((execCbcdec_of_fits hpos hmod hc hlen iven).symm.trans h))

/-- Settles O52: a failed check answers `raiseError` with its code; within its bounds a command answers NO_CONTEXT or NONE. -/
theorem capacityAndLengthChecks : Obligations.CapacityAndLengthChecks := by
  intro s v
  refine ⟨fun hc hlen => execCbcenc_of_tooLong hc hlen v, execMac_of_tooLong,
    fun hc hlen => execCbcdec_of_partialBlock hc hlen v,
    fun hc hpos hmod hlen => execCbcdec_of_tooLong hpos hmod hc hlen v, fun hlen t h => ?_, fun hmod hpos hlen t h => ?_⟩
  · rcases h with h | h
    · rcases execCbcenc_err_of_fits hlen h with herr | herr <;> simp [herr]
    · simp [finishWith_err ((execMac_of_fits hlen).symm.trans h)]
  · rcases execCbcdec_err_of_fits hpos hmod hlen h with herr | herr <;> simp [herr]

/-! ### Chaining -/

/-- What block `b` is chained with when DBUF holds `m`: the value `chainBefore` reads where the block before is written. -/
def chainValue (iv : Option Block) (b : Nat) (m : Memory) : Option Block :=
  if b = 0 then iv else some (blockAt m (16 * (b - 1)))

/-- The chaining as the equations of R173 and R177 write it. -/
theorem xorChain_chainValue (iven : Bool) (s : State) (b : Nat) (m : Memory) (x : Block) :
    xorChain x (chainValue (chainingInput iven s) b m) =
      if b = 0 then (if iven then blockXor x (unpackBlock s.iv) else x) else blockXor x (blockAt m (16 * (b - 1))) := by
  cases b with
  | zero => cases iven <;> rfl
  | succ b => rfl

theorem xorChain_xorChain (x : Block) (c : Option Block) : xorChain (xorChain x c) c = x := by
  cases c with
  | none => rfl
  | some c => exact blockXor_cancel_right x c

/-! ### The padded plaintext -/

section Plaintext

variable {s : State} {i b : Nat}

theorem memGet_eq_cbcPlainByte (hw : Written s.dbuf 0 s.len.toNat) (hi : i < s.len.toNat) :
    memGet s.dbuf i = some (cbcPlainByte s i) := by
  obtain ⟨v, hv⟩ := Option.isSome_iff_exists.mp (hw i hi)
  rw [Nat.zero_add] at hv
  rw [cbcPlainByte, if_pos hi, hv, Option.getD_some]

theorem cbcPlainByte_of_ge (hi : s.len.toNat ≤ i) : cbcPlainByte s i = BitVec.ofNat 8 (padCount s.len.toNat) :=
  if_neg hi.not_gt

/-- Padding a written message puts the padded plaintext into DBUF (R172). -/
theorem memGet_cbcPad_eq_cbcPlainByte (hw : Written s.dbuf 0 s.len.toNat)
    (hi : i < s.len.toNat + padCount s.len.toNat) :
    memGet (cbcPad s.len.toNat s.dbuf) i = some (cbcPlainByte s i) := by
  rw [memGet_cbcPad]
  by_cases hmsg : i < s.len.toNat
  · rw [if_neg (by omega), memGet_eq_cbcPlainByte hw hmsg]
  · rw [if_pos ⟨by omega, hi⟩, cbcPlainByte_of_ge (by omega)]

theorem blockByte_cbcPlainBlock (s : State) (b : Nat) {j : Nat} (hj : j < 16) :
    blockByte (cbcPlainBlock s b) j = cbcPlainByte s (16 * b + j) :=
  blockByte_blockOfFn _ hj

theorem written_cbcPad (hw : Written s.dbuf 0 s.len.toNat) :
    Written (cbcPad s.len.toNat s.dbuf) 0 (s.len.toNat + padCount s.len.toNat) := by
  intro i hi
  rw [Nat.zero_add, memGet_cbcPad_eq_cbcPlainByte hw hi, Option.isSome_some]

theorem blockAt_cbcPad (hw : Written s.dbuf 0 s.len.toNat)
    (hb : 16 * (b + 1) ≤ s.len.toNat + padCount s.len.toNat) :
    blockAt (cbcPad s.len.toNat s.dbuf) (16 * b) = cbcPlainBlock s b :=
  blockAt_of_memGet fun j hj => by
    rw [memGet_cbcPad_eq_cbcPlainByte hw (by omega), blockByte_cbcPlainBlock s b hj]

end Plaintext

/-! ### CBCENC and CBCDEC on written blocks -/

/-- The effect of CBCENC on a written message (R170, R172, R173). -/
theorem cbcEncrypt_of_written (iven : Bool) {s : State} (hw : Written s.dbuf 0 s.len.toNat) :
    ∃ u, cbcEncrypt iven s = .ok u ∧ Written u.dbuf 0 (s.len.toNat + padCount s.len.toNat) ∧
      ∀ b, 16 * b < s.len.toNat + padCount s.len.toNat →
        blockAt u.dbuf (16 * b) = cipher (contextKeys s) s.nr.toNat
          (xorChain (cbcPlainBlock s b) (chainValue (chainingInput iven s) b u.dbuf)) := by
  have hblocks := padded_blocks s.len.toNat
  set n := (s.len.toNat + padCount s.len.toNat) / 16
  obtain ⟨m, hm, -, hwm, hblk⟩ := cbcEncryptFrom_of_written (cipher (contextKeys s) s.nr.toNat) (chainingInput iven s) n 0
    (cbcPad s.len.toNat s.dbuf) (by rw [hblocks]; exact written_cbcPad hw) (fun h => absurd rfl h)
  refine ⟨_, except_map_eq_ok.mpr ⟨m, hm, rfl⟩, by rwa [hblocks] at hwm, fun b hb => ?_⟩
  have hplain := blockAt_cbcPad (b := b) hw (by omega)
  rw [hblk b b.zero_le (by omega), hplain]
  rfl

/-- A padded length that fits in a legal capacity fits in LEN (log 21). -/
theorem toNat_paddedLength {s : State} (hlegal : s.cfg.Legal) (hcap : s.len.toNat + 16 ≤ s.cfg.dbufBytes) :
    (BitVec.ofNat 32 (s.len.toNat + padCount s.len.toNat)).toNat = s.len.toNat + padCount s.len.toNat := by
  obtain ⟨-, -, hmax⟩ := hlegal
  have hpad := padCount_le s.len.toNat
  rw [BitVec.toNat_ofNat, Nat.mod_eq_of_lt (by omega)]

/-- CBCENC on a written message with a spare block, its chaining said by `chainValue` over the ciphertext. -/
theorem execCbcenc_completes (iven : Bool) {s : State} (hlegal : s.cfg.Legal) (hc : s.ctxv = true)
    (hcap : s.len.toNat + 16 ≤ s.cfg.dbufBytes) (hw : Written s.dbuf 0 s.len.toNat) :
    ∃ t, execCbcenc iven s = .next t ∧
      t = { s with dbuf := t.dbuf, len := t.len, err := .none, inflight := none, done := true } ∧
      t.len.toNat = s.len.toNat + padCount s.len.toNat ∧ Written t.dbuf 0 t.len.toNat ∧
      (∀ b, 16 * b < t.len.toNat → blockAt t.dbuf (16 * b) = cipher (contextKeys s) s.nr.toNat
        (xorChain (cbcPlainBlock s b) (chainValue (chainingInput iven s) b t.dbuf))) ∧
      SameOutside s.dbuf t.dbuf 0 t.len.toNat := by
  obtain ⟨u, hok, hwritten, hblk⟩ := cbcEncrypt_of_written iven hw
  obtain ⟨hwrites, hkeeps⟩ := cbcEncrypt_eq_ok hok
  have hlen : u.len = BitVec.ofNat 32 (s.len.toNat + padCount s.len.toNat) := congrArg State.len hwrites
  have hlenNat : u.len.toNat = s.len.toNat + padCount s.len.toNat := by rw [hlen, toNat_paddedLength hlegal hcap]
  rw [← hlen] at hwrites
  rw [← hlenNat] at hwritten hblk hkeeps
  exact ⟨completeWith .none u, by rw [execCbcenc_of_fits hc hcap, hok]; rfl, congrArg (completeWith .none) hwrites,
    hlenNat, hwritten, hblk, hkeeps.outside⟩

/-- CBCDEC on written whole blocks, its chaining said by `chainValue` over the ciphertext DBUF held before (R177, R178). -/
theorem execCbcdec_completes (iven : Bool) {s : State} (hc : s.ctxv = true) (hpos : s.len.toNat ≠ 0)
    (hmod : s.len.toNat % 16 = 0) (hcap : s.len.toNat ≤ s.cfg.dbufBytes) (hw : Written s.dbuf 0 s.len.toNat) :
    ∃ t, execCbcdec iven s = .next t ∧
      t = { s with dbuf := t.dbuf, err := .none, inflight := none, done := true } ∧ Written t.dbuf 0 s.len.toNat ∧
      (∀ b, 16 * b < s.len.toNat → blockAt t.dbuf (16 * b) =
        xorChain (invCipher (contextKeys s) s.nr.toNat (blockAt s.dbuf (16 * b)))
          (chainValue (chainingInput iven s) b s.dbuf)) ∧
      SameOutside s.dbuf t.dbuf 0 s.len.toNat := by
  have hblocks : 16 * (s.len.toNat / 16) = s.len.toNat := Nat.mul_div_cancel' (Nat.dvd_of_mod_eq_zero hmod)
  obtain ⟨m, hm, hout, hwm, hblk⟩ := cbcDecryptFrom_of_written (invCipher (contextKeys s) s.nr.toNat)
    (chainingInput iven s) (s.len.toNat / 16) s.dbuf (by rwa [hblocks])
  rw [hblocks] at hout hwm
  exact ⟨completeWith .none { s with dbuf := m }, by rw [execCbcdec_of_fits hpos hmod hc hcap, cbcDecrypt, hm]; rfl, rfl,
    hwm, fun b hb => hblk b (by omega), hout⟩

/-- Settles O53: the chaining equations, for block 0 and for the blocks after it. -/
theorem cbcencEncryptsPaddedMessage : Obligations.CbcencEncryptsPaddedMessage := by
  intro iven s hlegal hc hcap hw
  obtain ⟨t, hexec, hframe, hlen, hwritten, hblk, hout⟩ := execCbcenc_completes iven hlegal hc hcap hw
  refine ⟨t, hexec, hframe, hlen, hwritten, fun b hb => ?_, hout⟩
  rw [hblk b hb, xorChain_chainValue]
  cases b with
  | zero => rfl
  | succ b => rfl

/-- Settles O54: the chaining equations over the ciphertext that DBUF held. -/
theorem cbcdecDecryptsBlocks : Obligations.CbcdecDecryptsBlocks := by
  intro iven s hc hpos hmod hcap hw
  obtain ⟨t, hexec, hframe, hwritten, hblk, hout⟩ := execCbcdec_completes iven hc hpos hmod hcap hw
  exact ⟨t, hexec, hframe, hwritten, fun b hb => (hblk b hb).trans (xorChain_chainValue iven s b s.dbuf _), hout⟩

/-! ### The round trip -/

/-- A byte of whole written blocks, by its block and its place there. -/
theorem memGet_eq_blockByte {m : Memory} {n i : Nat} (hw : Written m 0 n) (hn : n % 16 = 0) (hi : i < n) :
    memGet m i = some (blockByte (blockAt m (16 * (i / 16))) (i % 16)) := by
  have hwb : Written m (16 * (i / 16)) 16 := written_sub hw (Nat.zero_le _) (by omega)
  have hbyte := memGet_of_written hwb (i % 16) (i.mod_lt (by decide))
  rwa [Nat.div_add_mod] at hbyte

/-- CBCENC then CBCDEC leaves the padded plaintext in DBUF (R180): InvCipher undoes Cipher, and the exclusive-or with the
ciphertext block before undoes that of the encryption. -/
theorem cbcenc_cbcdec_plain (iven : Bool) {s : State} (hlegal : s.cfg.Legal) (hc : s.ctxv = true)
    (hcap : s.len.toNat + 16 ≤ s.cfg.dbufBytes) (hw : Written s.dbuf 0 s.len.toNat) :
    ∃ t u, execCbcenc iven s = .next t ∧ execCbcdec iven t = .next u ∧
      u.len.toNat = s.len.toNat + padCount s.len.toNat ∧
      (∀ i < u.len.toNat, memGet u.dbuf i = some (cbcPlainByte s i)) ∧ SameOutside s.dbuf u.dbuf 0 u.len.toNat := by
  obtain ⟨t, henc, hframe, hlen, hwt, hcipher, hout⟩ := execCbcenc_completes iven hlegal hc hcap hw
  have hctxv : t.ctxv = s.ctxv := by rw [hframe]
  have hcfg : t.cfg = s.cfg := by rw [hframe]
  have hkeys : contextKeys t = contextKeys s := by rw [hframe]; rfl
  have hnr : t.nr = s.nr := by rw [hframe]
  have hiv : chainingInput iven t = chainingInput iven s := by rw [hframe]; rfl
  have hpad := padCount_le s.len.toNat
  have hpos := padCount_pos s.len.toNat
  have hmod : t.len.toNat % 16 = 0 := by rw [hlen, ← padded_blocks, Nat.mul_mod_right]
  obtain ⟨u, hdec, hframe', hwu, hplain, hout'⟩ :=
    execCbcdec_completes iven (hctxv.trans hc) (by omega) hmod (by rw [hcfg]; omega) hwt
  have hlenu : u.len = t.len := by rw [hframe']
  refine ⟨t, u, henc, hdec, by rw [hlenu, hlen], fun i hi => ?_, fun i hi => ?_⟩
  · rw [hlenu] at hi
    rw [memGet_eq_blockByte hwu hmod hi, hplain _ (by omega), hcipher _ (by omega), hkeys, hnr, hiv, invCipher_cipher,
      xorChain_xorChain, blockByte_cbcPlainBlock s _ (i.mod_lt (by decide)), Nat.div_add_mod]
  · rw [hlenu] at hi
    exact (hout' i hi).trans (hout i hi)

/-- Settles O55: the padded plaintext is the message and its pad. -/
theorem cbcRoundTrip : Obligations.CbcRoundTrip := by
  intro iven s hlegal hc hcap hw
  obtain ⟨t, u, henc, hdec, hlen, hplain, hout⟩ := cbcenc_cbcdec_plain iven hlegal hc hcap hw
  refine ⟨t, u, henc, hdec, hlen, fun i hi => ?_, fun i hlow hi => ?_, fun i hi => hout i (by omega)⟩
  · rw [hplain i (by omega), memGet_eq_cbcPlainByte hw hi]
  · rw [hplain i hi, cbcPlainByte_of_ge hlow, padCount]

/-! ### The IV that is zero -/

/-- Exclusive-or with a zero block is no chaining (R174). -/
theorem chainBefore_zero_bind {β : Type} (b : Nat) (m : Memory) (x : Block) (k : Block → Except Fault β) :
    ((chainBefore (some blockZero) b m).bind fun c => k (xorChain x c)) =
      (chainBefore none b m).bind fun c => k (xorChain x c) := by
  cases b with
  | zero => exact congrArg k (blockXor_zero x)
  | succ b => rfl

theorem cbcEncryptFrom_zero (enc : Block → Block) (n b : Nat) (m : Memory) :
    cbcEncryptFrom enc (some blockZero) n b m = cbcEncryptFrom enc none n b m := by
  induction n generalizing b m with
  | zero => rfl
  | succ n ih =>
    simp only [cbcEncryptFrom, ih]
    exact congrArg _ (funext fun x =>
      chainBefore_zero_bind b m x fun y => cbcEncryptFrom enc none n (b + 1) (writeBlock m (16 * b) (enc y)))

theorem cbcDecryptFrom_zero (dec : Block → Block) (n : Nat) (m : Memory) :
    cbcDecryptFrom dec (some blockZero) n m = cbcDecryptFrom dec none n m := by
  induction n generalizing m with
  | zero => rfl
  | succ b ih =>
    simp only [cbcDecryptFrom, ih]
    exact congrArg _ (funext fun x =>
      chainBefore_zero_bind b m (dec x) fun y => cbcDecryptFrom dec none b (writeBlock m (16 * b) y))

theorem unpackBlock_of_zero {w : Vector Word 4} (h : ∀ k : Fin 4, w[k] = 0) : unpackBlock w = blockZero := by
  have h0 : w[0] = 0 := h 0
  have h1 : w[1] = 0 := h 1
  have h2 : w[2] = 0 := h 2
  have h3 : w[3] = 0 := h 3
  rw [unpackBlock, h0, h1, h2, h3]
  decide

/-- Settles O56: a zero IV and none give the loops the same results, and the checks do not look at IVEN. -/
theorem zeroIvIsNoIv : Obligations.ZeroIvIsNoIv := by
  intro s hzero
  have hiv : chainingInput true s = some blockZero := congrArg some (unpackBlock_of_zero hzero)
  have hnone : chainingInput false s = none := rfl
  have henc : cbcEncrypt true s = cbcEncrypt false s := by
    simp only [cbcEncrypt, hiv, hnone, cbcEncryptFrom_zero]
  have hdec : cbcDecrypt true s = cbcDecrypt false s := by
    simp only [cbcDecrypt, hiv, hnone, cbcDecryptFrom_zero]
  exact ⟨by simp only [exec, execCbcenc, henc], by simp only [exec, execCbcdec, hdec]⟩

end Sys2Proof.Machine

/-! The MAC family: when MAC completes, with which tag and padding, and what they are a function of (44_mac.md R190 to R196). -/

namespace Sys2Proof.Machine

/-! ### The padded message -/

section PaddedMessage

variable {s : State} {i b : Nat}

/-- Padding a written message puts the padded message into DBUF (R192). -/
theorem memGet_macPad_eq_macPlainByte (hw : Written s.dbuf 0 s.len.toNat) (hi : i < macLength s.len.toNat) :
    memGet (macPad s.len.toNat s.dbuf) i = some (macPlainByte s i) := by
  rw [memGet_macPad, macPlainByte]
  by_cases hmsg : i < s.len.toNat
  · obtain ⟨v, hv⟩ := Option.isSome_iff_exists.mp (hw i hmsg)
    rw [Nat.zero_add] at hv
    rw [if_neg (by omega), if_pos hmsg, hv, Option.getD_some]
  · rw [if_pos ⟨by omega, hi⟩, if_neg hmsg]

theorem written_macPad (hw : Written s.dbuf 0 s.len.toNat) :
    Written (macPad s.len.toNat s.dbuf) 0 (macLength s.len.toNat) := by
  intro i hi
  rw [Nat.zero_add, memGet_macPad_eq_macPlainByte hw hi, Option.isSome_some]

/-- Padding writes no byte of the message. -/
theorem written_of_written_macPad (hw : Written (macPad s.len.toNat s.dbuf) 0 (macLength s.len.toNat)) :
    Written s.dbuf 0 s.len.toNat := by
  intro i hi
  have hpadded := hw i (hi.trans (lt_macLength _))
  rwa [memGet_macPad, if_neg (by omega)] at hpadded

theorem blockAt_macPad (hw : Written s.dbuf 0 s.len.toNat) (hb : b < macLength s.len.toNat / 16) :
    blockAt (macPad s.len.toNat s.dbuf) (16 * b) = macPlainBlock s b :=
  blockAt_of_memGet fun j hj => by
    rw [memGet_macPad_eq_macPlainByte hw (by omega), macPlainBlock, blockByte_blockOfFn _ hj]

end PaddedMessage

/-! ### What MAC does -/

/-- The tag of the padded message: its blocks chained from a zero block under the MAC context (R193). -/
def macTag (s : State) : Block :=
  (List.range (macLength s.len.toNat / 16)).foldl
    (fun acc b => cipher (macContext s.cfg).1 (macContext s.cfg).2 (blockXor acc (macPlainBlock s b))) blockZero

/-- The effect of MAC: the padding in DBUF and the tag in TAG (R190). -/
def authenticated (s : State) : State :=
  { s with dbuf := macPad s.len.toNat s.dbuf, tag := packBlock (macTag s) }

@[simp] theorem authenticated_dbuf (s : State) : (authenticated s).dbuf = macPad s.len.toNat s.dbuf := rfl
@[simp] theorem authenticated_tag (s : State) : (authenticated s).tag = packBlock (macTag s) := rfl

/-- The MAC loop completes only over written blocks. -/
theorem written_of_macFrom_eq_ok {enc : Block → Block} {m : Memory} {n b : Nat} {acc r : Block}
    (h : macFrom enc m n b acc = .ok r) : Written m (16 * b) (16 * n) := by
  induction n generalizing b acc with
  | zero => exact fun j hj => absurd hj j.not_lt_zero
  | succ n ih =>
    obtain ⟨x, hx, hrest⟩ := except_bind_eq_ok.mp h
    have hfirst := (readBlock_ok hx).1
    intro j hj
    by_cases hj16 : j < 16
    · exact hfirst j hj16
    · have hlater := ih hrest (j - 16) (by omega)
      rwa [show 16 * (b + 1) + (j - 16) = 16 * b + j by omega] at hlater

theorem macEffect_of_written {s : State} (hw : Written s.dbuf 0 s.len.toNat) : macEffect s = .ok (authenticated s) := by
  have hloop := macFrom_of_written (cipher (macContext s.cfg).1 (macContext s.cfg).2) (macPad s.len.toNat s.dbuf)
    (macLength s.len.toNat / 16) 0 blockZero (by rw [macLength_blocks]; exact written_macPad hw)
  rw [← List.range_eq_range'] at hloop
  refine except_map_eq_ok.mpr ⟨macTag s, hloop.trans (congrArg Except.ok ?_), rfl⟩
  exact List.foldl_ext _ _ _ fun acc b hb => by rw [blockAt_macPad hw (List.mem_range.mp hb)]

/-- The effect of MAC is defined exactly when the message is written. -/
theorem macEffect_eq_ok_iff {s u : State} :
    macEffect s = .ok u ↔ Written s.dbuf 0 s.len.toNat ∧ u = authenticated s := by
  constructor
  · intro h
    obtain ⟨acc, hloop, -⟩ := except_map_eq_ok.mp h
    have hpadded := written_of_macFrom_eq_ok hloop
    rw [macLength_blocks] at hpadded
    have hw := written_of_written_macPad hpadded
    exact ⟨hw, Except.ok.inj (h.symm.trans (macEffect_of_written hw))⟩
  · rintro ⟨hw, rfl⟩
    exact macEffect_of_written hw

/-- MAC on a written message with a spare block. -/
theorem exec_mac_of_written {s : State} (hcap : s.len.toNat + 16 ≤ s.cfg.dbufBytes)
    (hw : Written s.dbuf 0 s.len.toNat) : exec .mac s = .next (completeWith .none (authenticated s)) :=
  (execMac_of_fits hcap).trans (congrArg finishWith (macEffect_of_written hw))

/-- MAC that completes without error has had its one effect. -/
theorem exec_mac_eq_next_of_err_none {s t : State} (h : exec .mac s = .next t) (herr : t.err = .none) :
    t = completeWith .none (authenticated s) := by
  rcases exec_eq_next h with ⟨e, he, rfl⟩ | ⟨u, rfl, -, hu⟩
  · exact absurd herr he
  · rw [(macEffect_eq_ok_iff.mp hu).2]

/-- Settles O57: the tag is that of the padded message, which is what the loop finds in DBUF. -/
theorem macComputesTag : Obligations.MacComputesTag := by
  intro s hcap hw
  refine ⟨_, exec_mac_of_written hcap hw, rfl, memGet_macPad _ _, ?_⟩
  have hblocks : macLength s.len.toNat / 16 = s.len.toNat / 16 + 1 := by unfold macLength; omega
  rw [completeWith_tag, authenticated_tag, unpackBlock_packBlock, macTag, hblocks]
  rfl

/-! ### What the tag is a function of -/

section SameMessage

variable {s s' : State} (hlen : s.len = s'.len) (hmsg : ∀ i < s.len.toNat, memGet s.dbuf i = memGet s'.dbuf i)
include hlen hmsg

theorem macPlainBlock_congr (b : Nat) : macPlainBlock s b = macPlainBlock s' b := by
  have hbyte (i : Nat) : macPlainByte s i = macPlainByte s' i := by
    rw [macPlainByte, macPlainByte, ← hlen]
    by_cases hi : i < s.len.toNat
    · rw [if_pos hi, if_pos hi, hmsg i hi]
    · rw [if_neg hi, if_neg hi]
  simp only [macPlainBlock, hbyte]

theorem macTag_congr (hkey : s.cfg.v4Key = s'.cfg.v4Key) : macTag s = macTag s' := by
  simp only [macTag, macContext, v4Quads, hkey, hlen, macPlainBlock_congr hlen hmsg]

end SameMessage

/-- Settles O58: the tag is chained from the padded message, and the padding depends on LEN only. -/
theorem macDeterminism : Obligations.MacDeterminism := by
  intro s s' t t' hkey hlen hmsg h h' herr herr'
  obtain rfl := exec_mac_eq_next_of_err_none h herr
  obtain rfl := exec_mac_eq_next_of_err_none h' herr'
  refine ⟨congrArg packBlock (macTag_congr hlen hmsg hkey), fun i hlow hhigh => ?_⟩
  have hpad : s.len.toNat ≤ i ∧ i < macLength s.len.toNat := ⟨hlow, hhigh⟩
  rw [completeWith_dbuf, completeWith_dbuf, authenticated_dbuf, authenticated_dbuf, ← hlen, memGet_macPad, memGet_macPad,
    if_pos hpad, if_pos hpad]

/-! ### KEY and the context -/

/-- Another KEY and another context (R195). -/
def replaceContext (key : Vector Word 8) (rk : Vector Word 60) (nr : BitVec 4) (twk ctxv : Bool) (s : State) : State :=
  { s with key := key, rk := rk, nr := nr, twk := twk, ctxv := ctxv }

section ReplaceContext

variable (key : Vector Word 8) (rk : Vector Word 60) (nr : BitVec 4) (twk ctxv : Bool) {s : State}

theorem macEffect_replaceContext {u : State} (h : macEffect s = .ok u) :
    macEffect (replaceContext key rk nr twk ctxv s) = .ok (replaceContext key rk nr twk ctxv u) := by
  obtain ⟨acc, hloop, rfl⟩ := except_map_eq_ok.mp h
  exact except_map_eq_ok.mpr ⟨acc, hloop, rfl⟩

theorem execMac_replaceContext {t : State} (h : execMac s = .next t) :
    execMac (replaceContext key rk nr twk ctxv s) = .next (replaceContext key rk nr twk ctxv t) := by
  by_cases hcap : s.len.toNat + 16 ≤ s.cfg.dbufBytes
  · rw [execMac_of_fits hcap] at h
    obtain ⟨u, hu, rfl⟩ := finishWith_eq_next.mp h
    exact (execMac_of_fits (s := replaceContext key rk nr twk ctxv s) hcap).trans
      (congrArg finishWith (macEffect_replaceContext key rk nr twk ctxv hu))
  · rw [execMac_of_tooLong (Nat.lt_of_not_le hcap)] at h
    obtain rfl := raiseError_eq_next.mp h
    exact execMac_of_tooLong (Nat.lt_of_not_le hcap)

end ReplaceContext

/-- Settles O59: the check and the effect of MAC read neither KEY nor the context, and keep them. -/
theorem macIndependentOfContext : Obligations.MacIndependentOfContext :=
  fun _ _ key rk nr twk ctxv h => execMac_replaceContext key rk nr twk ctxv h

end Sys2Proof.Machine

/-! The control family: acceptance, the cycles before completion, and the completion of NOP and of a word that is no command
(45_control.md R200 to R203). -/

namespace Sys2Proof.Machine

/-! ### The cycles before completion -/

/-- The command in flight and every field in which its result could show, but DONE (45_control.md R202). -/
def resultFields (s : State) : Option Nat × Bool × Bool × ErrCode × BitVec 4 × Word × Word × Vector Word 8 × Vector Word 4 ×
    Vector Word 4 × Vector Word 60 × Memory × Config :=
  (s.inflight, s.ctxv, s.twk, s.err, s.nr, s.cmd, s.len, s.key, s.iv, s.tag, s.rk, s.dbuf, s.cfg)

/-- While BUSY = 1 a host write does nothing, or sets OVR, or reaches CTRL or STATUS (70_reset_and_hazards.md R250, R252). -/
theorem hostWrite_cases_of_busy {u : State} (hb : busy u = true) (a : BitVec 14) (v : Word) :
    hostWrite a v u = u ∨ hostWrite a v u = overrun u ∨ hostWrite a v u = { u with ie := v.getLsbD 0 } ∨
      hostWrite a v u = writeStatus v u := by
  rcases hostWrite_cases a v u with e | ⟨-, e⟩ | ⟨-, e⟩ | ⟨-, e⟩ | ⟨hfree, -⟩
  · exact .inl e
  · exact .inr (.inl e)
  · exact .inr (.inr (.inl e))
  · exact .inr (.inr (.inr e))
  · rw [hb] at hfree
    cases hfree

/-- A host write while BUSY = 1 keeps every field of the result, and sets no DONE. -/
theorem hostWrite_keeps_result_of_busy {u : State} (hb : busy u = true) (a : BitVec 14) (v : Word) :
    resultFields (hostWrite a v u) = resultFields u ∧ ((hostWrite a v u).done = true → u.done = true) := by
  rcases hostWrite_cases_of_busy hb a v with e | e | e | e <;> rw [e]
  · exact ⟨rfl, id⟩
  · exact ⟨rfl, id⟩
  · exact ⟨rfl, id⟩
  · exact ⟨rfl, fun h => (Bool.and_eq_true_iff.mp h).1⟩

/-- Settles O10: the core's part counts a cycle, and the host's part finds BUSY = 1. -/
theorem noEffectBeforeCompletion : Obligations.NoEffectBeforeCompletion := by
  intro s t n hfl hrst hstep
  obtain ⟨u, hcore, hhost⟩ := step_eq_next_without_reset hstep hrst
  rw [coreCycle_of_waiting (s := beginCycle s) hfl] at hcore
  obtain rfl := Host.Outcome.next.inj hcore
  have hkept : resultFields t = resultFields { s with inflight := some (n + 1) } ∧ (t.done = true → s.done = true) := by
    rcases hhost with ⟨a, v, -, rfl⟩ | ⟨r, l, d, rfl⟩
    · exact hostWrite_keeps_result_of_busy rfl a v
    · exact ⟨rfl, id⟩
  obtain ⟨hresult, hdone⟩ := hkept
  simp only [resultFields, Prod.mk.injEq] at hresult
  obtain ⟨hinflight, hothers⟩ := hresult
  exact ⟨hinflight, hdone, hothers⟩

/-! ### Words that are no command, and NOP -/

theorem completeCommand_of_illegal {s : State} {why : Illegal} (h : decode s.cmd = .illegal why) :
    completeCommand s = .next (completeWith .illegalCommand s) := by
  simp only [completeCommand, h, execIllegal, raiseError]

/-- Settles O7: a word that no row accepts decodes to Illegal (R88), so the due completion raises ILLEGAL_COMMAND. -/
theorem illegalWordsCompleteWithError : Obligations.IllegalWordsCompleteWithError := by
  intro s n hfl hn hnone hop
  obtain ⟨-, -, hillegal, -⟩ := decodeFollowsOpcodeMap s.cmd
  obtain ⟨why, hdec⟩ := hillegal hnone
  calc step s = coreCycle (beginCycle s) := step_of_idle hop
    _ = completeCommand (beginCycle s) := coreCycle_of_due hfl hn
    _ = .next (completeWith .illegalCommand (beginCycle s)) := completeCommand_of_illegal hdec

/-- Settles O34: the meaning of NOP is the completion with ERR = NONE. -/
theorem nopCompletes : Obligations.NopCompletes := fun _ => rfl

/-! ### Acceptance -/

section Acceptance

variable {u : State} {a : BitVec 14} {w : Word}

theorem hostWrite_of_cmd (hb : busy u = false) (hr : regAt u.cfg a = .cmd) : hostWrite a w u = acceptCommand w u := by
  simp [hostWrite, hr, writeReg, unlessBusy, hb]

theorem hostWrite_of_cmd_of_busy (hb : busy u = true) (hr : regAt u.cfg a = .cmd) : hostWrite a w u = overrun u := by
  simp [hostWrite, hr, writeReg, unlessBusy, hb]

end Acceptance

/-- Settles O8: the write of CMD is the acceptance, with a drawn latency, or the overrun. -/
theorem acceptanceOfCommands : Obligations.AcceptanceOfCommands := by
  intro s u w hcore hop
  have hcmd : regAt u.cfg (wordAddress 0x00C) = .cmd := regAt_cmd u.cfg
  refine ⟨fun hb => ⟨drawLatency w u, one_le_drawLatency w u, ?_⟩, fun hb => ?_⟩
  · exact (step_of_write hcore hop).trans (congrArg _ (hostWrite_of_cmd hb hcmd))
  · exact (step_of_write hcore hop).trans (congrArg _ (hostWrite_of_cmd_of_busy hb hcmd))

end Sys2Proof.Machine

/-! The exceptions family: what a command in error reports and leaves alone, `irq`, and the order of completion, host access and
reset in one cycle (60_exceptions.md R212, R213, R220, R221). -/

namespace Sys2Proof.Machine

/-! ### The checks of a command -/

/-- What a command answers after its checks (60_exceptions.md R213): the code of the first one violated, or its effect `r`. -/
def checked (checks : List (Bool × ErrCode)) (s : State) (r : Except Fault State) : Result :=
  match firstViolation checks with
  | some e => raiseError e s
  | none => finishWith r

section Checked

variable {checks : List (Bool × ErrCode)} {s : State} {r : Except Fault State}

@[simp] theorem checked_nil : checked [] s r = finishWith r := rfl

@[simp] theorem checked_cons (violated : Bool) (code : ErrCode) :
    checked ((violated, code) :: checks) s r = if violated then raiseError code s else checked checks s r := by
  cases violated <;> rfl

theorem checked_of_violation {e : ErrCode} (h : firstViolation checks = some e) : checked checks s r = raiseError e s := by
  rw [checked, h]

theorem checked_of_no_violation (h : firstViolation checks = none) : checked checks s r = finishWith r := by
  rw [checked, h]

end Checked

/-- The two checks of ENCB and DECB: a context (R159), then the range of the block (R152). -/
theorem transformBlock_eq_checked (f : Block → Block) (b : Nat) (s : State) :
    transformBlock f b s = checked [(!s.ctxv, .noContext), (decide (s.cfg.dbufBytes < 16 * b + 16), .range)] s
      ((readBlock s.dbuf (blockOffset b)).map fun x =>
        { s with dbuf := writeBlock s.dbuf (blockOffset b) (f x) }) := by
  simp [transformBlock, blockOffset]

/-- The one check of KEYEXP: its key length (R131). -/
theorem execKeyexp_eq_checked (tweak : Bool) (nk : Nat) (s : State) :
    execKeyexp tweak nk s = checked [(nk ≠ 4 && nk ≠ 5 && nk ≠ 6 && nk ≠ 8, .invalidKeyLength)] s
      (.ok (loadContext (keyExpand ((keyQuads s).take nk) nk tweak) tweak s)) := by
  have hviolated : (nk ≠ 4 && nk ≠ 5 && nk ≠ 6 && nk ≠ 8) = true ↔ ¬ supportedNk nk := by simp [and_assoc]
  rw [checked_cons, checked_nil, execKeyexp]
  simp only [hviolated, ite_not]
  rfl

/-- A completion makes the checks of its row of R213, in the order of that table, and then has its effect. -/
theorem completeCommand_eq_checked (s : State) : ∃ r, completeCommand s = checked (commandChecks s) s r := by
  cases hdec : decode s.cmd with
  | illegal why => exact ⟨.ok s, by simp [completeCommand_of_illegal hdec, commandChecks, hdec, raiseError]⟩
  | instr i =>
    rw [completeCommand_of_decode hdec]
    cases i with
    | nop => exact ⟨.ok s, by simp [commandChecks, hdec, exec, execNop, finishWith]⟩
    | keyexp tweak nk => exact ⟨_, by rw [commandChecks, hdec]; exact execKeyexp_eq_checked tweak nk s⟩
    | encb b => exact ⟨_, by rw [commandChecks, hdec]; exact transformBlock_eq_checked _ b s⟩
    | decb b => exact ⟨_, by rw [commandChecks, hdec]; exact transformBlock_eq_checked _ b s⟩
    | cbcenc iven => exact ⟨cbcEncrypt iven s, by simp [commandChecks, hdec, exec, execCbcenc]⟩
    | cbcdec iven => exact ⟨cbcDecrypt iven s, by simp [commandChecks, hdec, exec, execCbcdec]⟩
    | mac => exact ⟨macEffect s, by simp [commandChecks, hdec, exec, execMac]⟩

/-- Settles O32: a completion is its checks in order, and the effect of a command that passes them completes with NONE. -/
theorem errorPriority : Obligations.ErrorPriority := by
  intro s
  obtain ⟨r, hr⟩ := completeCommand_eq_checked s
  rw [hr]
  exact ⟨fun e he => checked_of_violation he, fun hnone t ht => finishWith_err ((checked_of_no_violation hnone).symm.trans ht)⟩

/-- Settles O31: a completion either failed its checks or reports NONE. -/
theorem failedCommandTouchesNothing : Obligations.FailedCommandTouchesNothing := by
  intro s t h herr
  rcases completeCommand_eq_next h with ⟨e, -, rfl⟩ | ⟨i, u, -, rfl, -⟩
  · rfl
  · exact absurd (completeWith_err .none u) herr

/-! ### The flags after a completion and after reset -/

/-- A completion clears BUSY and sets DONE (45_control.md R202), and no command writes IE. -/
theorem completeCommand_flags {s t : State} (h : completeCommand s = .next t) :
    busy t = false ∧ t.done = true ∧ t.ie = s.ie := by
  rcases completeCommand_eq_next h with ⟨e, -, rfl⟩ | ⟨i, u, -, rfl, heffect⟩
  · exact ⟨rfl, rfl, rfl⟩
  · obtain ⟨-, hie, -⟩ := heffect.kept
    exact ⟨rfl, rfl, hie⟩

/-- After a cycle with reset every field holds its reset value, but for the parameters, the read-data port and the model's own
fields (70_reset_and_hazards.md R240; log 3, log 8, log 18). -/
theorem resetCycle_eq (x : Option Access) (s : State) :
    ∃ v d, resetCycle x s = { State.resetWith s.cfg with host := s.host, rdata := v, draws := d } := by
  rcases x with - | ⟨a⟩ | ⟨a, v⟩
  all_goals exact ⟨_, _, rfl⟩

theorem statusWord_resetCycle (x : Option Access) (s : State) : statusWord (resetCycle x s) = 0 := by
  obtain ⟨v, d, e⟩ := resetCycle_eq x s
  rw [e]
  simp [statusWord, busy, State.resetWith, errBits]

/-- Settles O20: a completion leaves DONE = 1 and IE as it was; a STATUS write of 1 to DONE, an acceptance and reset clear DONE. -/
theorem irqLevel : Obligations.IrqLevel := by
  refine ⟨fun s => ?_, fun s t h => ?_, fun s v hv => ?_, fun s w => rfl, fun s x => ?_⟩
  · rw [statusWord_bit]
    rfl
  · obtain ⟨-, hdone, hie⟩ := completeCommand_flags h
    rw [irq, hdone, hie, Bool.true_and]
  · rw [irq, writeStatus_done, hv]
    simp
  · obtain ⟨v, d, e⟩ := resetCycle_eq x s
    rw [e]
    rfl

/-! ### The order of completion, host access and reset -/

/-- Settles O21: the access acts on the state `u` that the completion leaves, which is not busy; a reset cycle runs neither. -/
theorem completionBeforeAccess : Obligations.CompletionBeforeAccess := by
  refine ⟨fun s u n hfl hn hcomplete => ?_, fun s x hop => ⟨_, step_of_reset hop, ?_⟩⟩
  · have hcore : coreCycle (beginCycle s) = .next u := (coreCycle_of_due (s := beginCycle s) hfl hn).trans hcomplete
    obtain ⟨hbusy, -, -⟩ := completeCommand_flags hcomplete
    refine ⟨hbusy, (statusWord_bit u 0).trans hbusy, fun x hop => step_of_access hcore hop, fun hop => ?_, fun w hop => ?_⟩
    · exact step_of_visible_read hcore hop rfl rfl
    · exact (acceptanceOfCommands s u w hcore hop).1 hbusy
  · have hstatus := statusWord_resetCycle x (beginCycle s)
    obtain ⟨v, d, e⟩ := resetCycle_eq x (beginCycle s)
    rw [e] at hstatus ⊢
    exact ⟨rfl, rfl, hstatus, rfl, fun _ => rfl⟩

end Sys2Proof.Machine

/-! The reset and hazards family: host writes while BUSY = 1, what CTRL and STATUS take at any time, and what a cycle with reset
leaves (70_reset_and_hazards.md R240, R241, R250, R252). -/

namespace Sys2Proof.Machine

/-! ### Host writes while BUSY = 1 -/

/-- What BUSY guards is dropped while BUSY = 1, with OVR set (R250). -/
theorem unlessBusy_of_busy {u : State} (hb : busy u = true) (f : State → State) : unlessBusy f u = overrun u :=
  if_pos hb

/-- A step with a host write, by the register it selects. -/
theorem step_of_write_to {s u : State} {a : BitVec 14} {v : Word} {r : Reg} (hcore : coreCycle (beginCycle s) = .next u)
    (hop : hostOp s = .access (.wr a v)) (hr : regAt u.cfg a = r) : step s = .next (writeReg v u r) :=
  hr ▸ step_of_write hcore hop

/-- Settles O16: a guarded register drops the write with OVR set, an RO or reserved one ignores it, and CTRL and STATUS hold no
command. -/
theorem busyDiscipline : Obligations.BusyDiscipline := by
  intro s u a v hcore hb hop
  cases hr : regAt u.cfg a with
  | cmd | len | key _ | iv _ | dbuf _ =>
    rw [step_of_write_to hcore hop hr, writeReg, unlessBusy_of_busy hb]
    rfl
  | id | dbufsz | tag _ | rk _ | reserved => exact step_of_write_to hcore hop hr
  | ctrl => exact ⟨_, step_of_write_to hcore hop hr, rfl⟩
  | status => exact ⟨_, step_of_write_to hcore hop hr, writeStatus_inflight v u⟩

/-! ### Writes to CTRL and STATUS at any time -/

/-- DONE is 0 while a command is in flight (45_control.md R201). -/
theorem InflightOk.done_eq_false {u : State} (h : InflightOk u) (hb : busy u = true) : u.done = false := by
  obtain ⟨n, hn⟩ := Option.isSome_iff_exists.mp hb
  obtain ⟨-, hdone, -⟩ := h n hn
  exact hdone

/-- Where DONE is 0, a write to STATUS changes OVR at most (R252). -/
theorem writeStatus_of_not_done {u : State} (hdone : u.done = false) (v : Word) :
    writeStatus v u = { u with ovr := (writeStatus v u).ovr } := by
  simp only [writeStatus, hdone, Bool.false_and]

/-- Settles O19: the host's part of the cycle is the write of IE, or that of STATUS, whatever BUSY is. -/
theorem controlWritesAtAnyTime : Obligations.ControlWritesAtAnyTime := by
  intro s u v hcore
  refine ⟨fun hop => step_of_write_to hcore hop (regAt_ctrl u.cfg),
    fun hop => ⟨_, step_of_write_to hcore hop (regAt_status u.cfg), rfl, rfl, rfl, fun hok hb => ?_⟩⟩
  exact writeStatus_of_not_done (hok.done_eq_false hb) v

/-! ### Reset -/

/-- A cycle with reset puts a value on the read-data port exactly when it makes a read (R240; log 7, log 18). -/
theorem resetCycle_rdata_isSome (x : Option Access) (s : State) :
    (∃ a, x = some (.rd a)) ↔ (resetCycle x s).rdata.isSome = true := by
  rcases x with - | ⟨a⟩ | ⟨a, v⟩
  · exact ⟨nofun, nofun⟩
  · exact ⟨fun _ => rfl, fun _ => ⟨a, rfl⟩⟩
  · exact ⟨nofun, nofun⟩

/-- Settles O22: the state after the cycle is the reset state, but for the host's list, the read-data port and the draws. -/
theorem resetValues : Obligations.ResetValues := by
  intro s x hop
  refine ⟨_, step_of_reset hop, ?_⟩
  have hstatus := statusWord_resetCycle x (beginCycle s)
  have hread := resetCycle_rdata_isSome x (beginCycle s)
  obtain ⟨v, d, e⟩ := resetCycle_eq x (beginCycle s)
  rw [e] at hstatus hread ⊢
  exact ⟨rfl, rfl, hstatus, rfl, rfl, fun k => Vector.getElem_replicate k.isLt, fun k => Vector.getElem_replicate k.isLt,
    fun k => Vector.getElem_replicate k.isLt, fun k => Vector.getElem_replicate k.isLt, rfl, rfl, fun _ => rfl, rfl, hread⟩

end Sys2Proof.Machine
